-- ==== Sys2Proof/Word.lean ====
section
/-! DEFINITION. The widths the manual gives its values (R11, R12, R20, R81), each a bit vector because the manual
masks and concatenates it. -/

namespace Sys2Proof

/-- A memory cell, a general or RPL register, a timer, the field `nn` (R22, R32, R33, R50, R81). -/
abbrev Byte := BitVec 8

/-- An instruction word, the key vector, the stack pointer (R16, R30, R80). -/
abbrev Word := BitVec 16

/-- The index register, the program counter, the field `nnn` (R25, R26, R81). -/
abbrev Addr := BitVec 12

/-- A register index `x` or `y`, the field `n`, a logical key (R16, R81). -/
abbrev Nibble := BitVec 4

end Sys2Proof
end

