-- ==== Sys2Proof/Syntax.lean ====
section
/-! DEFINITION. The instructions: one constructor for each of the 44 rows of R96 (spec/opcode_table.json), carrying
the fields that row names (R81). Bits a row ignores are no field. -/

namespace Sys2Proof

inductive Instr where
  | cls                              -- 0?E0
  | ret                              -- 0?EE
  | scd (n : Nibble)                 -- 0?Cn
  | scr                              -- 0?FB
  | scl                              -- 0?FC
  | exit                             -- 0?FD
  | low                              -- 0?FE
  | high                             -- 0?FF
  | sys (nnn : Addr)                 -- 0nnn, none of the rows above
  | jp (nnn : Addr)                  -- 1nnn
  | call (nnn : Addr)                -- 2nnn
  | seImm (x : Nibble) (nn : Byte)   -- 3xnn
  | sneImm (x : Nibble) (nn : Byte)  -- 4xnn
  | seReg (x y : Nibble)             -- 5xy?
  | ldImm (x : Nibble) (nn : Byte)   -- 6xnn
  | addImm (x : Nibble) (nn : Byte)  -- 7xnn
  | ldReg (x y : Nibble)             -- 8xy0
  | or (x y : Nibble)                -- 8xy1
  | and (x y : Nibble)               -- 8xy2
  | xor (x y : Nibble)               -- 8xy3
  | addReg (x y : Nibble)            -- 8xy4
  | sub (x y : Nibble)               -- 8xy5
  | shr (x y : Nibble)               -- 8xy6
  | subn (x y : Nibble)              -- 8xy7
  | shl (x y : Nibble)               -- 8xyE
  | sneReg (x y : Nibble)            -- 9xy?
  | ldI (nnn : Addr)                 -- Annn
  | jpI (nnn : Addr)                 -- Bnnn
  | rnd (x : Nibble) (nn : Byte)     -- Cxnn
  | drw (x y n : Nibble)             -- Dxyn
  | skp (x : Nibble)                 -- Ex9E
  | sknp (x : Nibble)                -- ExA1
  | ldVDt (x : Nibble)               -- Fx07
  | ldVK (x : Nibble)                -- Fx0A
  | ldDtV (x : Nibble)               -- Fx15
  | ldStV (x : Nibble)               -- Fx18
  | addIV (x : Nibble)               -- Fx1E
  | ldFV (x : Nibble)                -- Fx29
  | ldHfV (x : Nibble)               -- Fx30
  | ldBV (x : Nibble)                -- Fx33
  | ldMemV (x : Nibble)              -- Fx55
  | ldVMem (x : Nibble)              -- Fx65
  | ldRV (x : Nibble)                -- Fx75
  | ldVR (x : Nibble)                -- Fx85
  deriving DecidableEq, Repr

end Sys2Proof
end

