-- ==== Sys2Proof/WellFormed.lean ====
section
/-! DEFINITION. Which terms of `Instr` are instructions of the machine. Every field has its width in its type, so the
one check left is that of SYS, which stands only for the 0x0 words no other row takes (R84, R91, R96 row 9). -/

namespace Sys2Proof

/-- The low bytes of the 0x0 family that name an instruction other than SYS (R84). -/
def isNamedLowByte (nn : Byte) : Bool :=
  nn == 0xE0 || nn == 0xEE || nn.extractLsb' 4 4 == 0xC || nn == 0xFB || nn == 0xFC || nn == 0xFD
    || nn == 0xFE || nn == 0xFF

def Instr.wellFormed : Instr → Bool
  | .sys nnn => !isNamedLowByte (nnn.extractLsb' 0 8)
  | .cls | .ret | .scd _ | .scr | .scl | .exit | .low | .high => true
  | .jp _ | .call _ | .seImm _ _ | .sneImm _ _ | .seReg _ _ | .sneReg _ _ | .jpI _ => true
  | .ldImm _ _ | .addImm _ _ | .ldReg _ _ | .or _ _ | .and _ _ | .xor _ _ => true
  | .addReg _ _ | .sub _ _ | .shr _ _ | .subn _ _ | .shl _ _ | .rnd _ _ => true
  | .ldI _ | .addIV _ | .ldFV _ | .ldHfV _ | .ldBV _ | .ldMemV _ | .ldVMem _ | .ldRV _ | .ldVR _ => true
  | .skp _ | .sknp _ | .ldVDt _ | .ldVK _ | .ldDtV _ | .ldStV _ => true
  | .drw _ _ _ => true

end Sys2Proof
end

