-- ==== Sys2Proof/Decode.lean ====
section
/-! DEFINITION. From bytes to an instruction or a rejection by name (R80 to R92, R97), and the encoder of the same
table (R96). Decoding reads no state (R98). -/

namespace Sys2Proof

/-- `w[15:12]` (R81). -/
def opOf (w : Word) : Nibble := w.extractLsb' 12 4
/-- `w[11:8]` (R81). -/
def xOf (w : Word) : Nibble := w.extractLsb' 8 4
/-- `w[7:4]` (R81). -/
def yOf (w : Word) : Nibble := w.extractLsb' 4 4
/-- `w[3:0]` (R81). -/
def nOf (w : Word) : Nibble := w.extractLsb' 0 4
/-- `w[7:0]` (R81). -/
def nnOf (w : Word) : Byte := w.extractLsb' 0 8
/-- `w[11:0]` (R81). -/
def nnnOf (w : Word) : Addr := w.extractLsb' 0 12

/-- Why bytes are no instruction. -/
inductive Reject where
  /-- An `otherwise` arm of R97: the word is one of R90. -/
  | unknownOpcode (w : Word)
  /-- Fewer than the two bytes every instruction has (R80); the machine's fetch always hands over two. -/
  | tooShort
  deriving DecidableEq, Repr

/-- The 0x0 family (R84, D1): `w[11:8]` is not examined, and an unmatched low byte is SYS. -/
def decodeZero (w : Word) : Instr :=
  if nnOf w = 0xE0 then .cls
  else if nnOf w = 0xEE then .ret
  else if yOf w = 0xC then .scd (nOf w)
  else if nnOf w = 0xFB then .scr
  else if nnOf w = 0xFC then .scl
  else if nnOf w = 0xFD then .exit
  else if nnOf w = 0xFE then .low
  else if nnOf w = 0xFF then .high
  else .sys (nnnOf w)

/-- The 0x8 family (R85). -/
def decodeEight (w : Word) : Except Reject Instr :=
  match nOf w with
  | 0x0#4 => .ok (.ldReg (xOf w) (yOf w))
  | 0x1#4 => .ok (.or (xOf w) (yOf w))
  | 0x2#4 => .ok (.and (xOf w) (yOf w))
  | 0x3#4 => .ok (.xor (xOf w) (yOf w))
  | 0x4#4 => .ok (.addReg (xOf w) (yOf w))
  | 0x5#4 => .ok (.sub (xOf w) (yOf w))
  | 0x6#4 => .ok (.shr (xOf w) (yOf w))
  | 0x7#4 => .ok (.subn (xOf w) (yOf w))
  | 0xE#4 => .ok (.shl (xOf w) (yOf w))
  | _ => .error (.unknownOpcode w)

/-- The 0xE family (R86). -/
def decodeE (w : Word) : Except Reject Instr :=
  match nnOf w with
  | 0x9E#8 => .ok (.skp (xOf w))
  | 0xA1#8 => .ok (.sknp (xOf w))
  | _ => .error (.unknownOpcode w)

/-- The 0xF family (R87). -/
def decodeF (w : Word) : Except Reject Instr :=
  match nnOf w with
  | 0x07#8 => .ok (.ldVDt (xOf w))
  | 0x0A#8 => .ok (.ldVK (xOf w))
  | 0x15#8 => .ok (.ldDtV (xOf w))
  | 0x18#8 => .ok (.ldStV (xOf w))
  | 0x1E#8 => .ok (.addIV (xOf w))
  | 0x29#8 => .ok (.ldFV (xOf w))
  | 0x30#8 => .ok (.ldHfV (xOf w))
  | 0x33#8 => .ok (.ldBV (xOf w))
  | 0x55#8 => .ok (.ldMemV (xOf w))
  | 0x65#8 => .ok (.ldVMem (xOf w))
  | 0x75#8 => .ok (.ldRV (xOf w))
  | 0x85#8 => .ok (.ldVR (xOf w))
  | _ => .error (.unknownOpcode w)

/-- The decode function of R97, total on all 65536 words. The last arm is the top-level value 0xF. -/
def decodeWord (w : Word) : Except Reject Instr :=
  match opOf w with
  | 0x0#4 => .ok (decodeZero w)
  | 0x1#4 => .ok (.jp (nnnOf w))
  | 0x2#4 => .ok (.call (nnnOf w))
  | 0x3#4 => .ok (.seImm (xOf w) (nnOf w))
  | 0x4#4 => .ok (.sneImm (xOf w) (nnOf w))
  | 0x5#4 => .ok (.seReg (xOf w) (yOf w))
  | 0x6#4 => .ok (.ldImm (xOf w) (nnOf w))
  | 0x7#4 => .ok (.addImm (xOf w) (nnOf w))
  | 0x8#4 => decodeEight w
  | 0x9#4 => .ok (.sneReg (xOf w) (yOf w))
  | 0xA#4 => .ok (.ldI (nnnOf w))
  | 0xB#4 => .ok (.jpI (nnnOf w))
  | 0xC#4 => .ok (.rnd (xOf w) (nnOf w))
  | 0xD#4 => .ok (.drw (xOf w) (yOf w) (nOf w))
  | 0xE#4 => decodeE w
  | _ => decodeF w

/-- Two bytes as the big-endian word they are (R59). -/
def wordOfBytes (hi lo : Byte) : Word := hi ++ lo

/-- The bytes of a word, high byte first (R59). -/
def bytesOfWord (w : Word) : List Byte := [w.extractLsb' 8 8, w.extractLsb' 0 8]

/-- The instruction at the head of a byte sequence, and the bytes after it (R80, R97). -/
def decode : List Byte → Except Reject (Instr × List Byte)
  | hi :: lo :: rest =>
    match decodeWord (wordOfBytes hi lo) with
    | .ok i => .ok (i, rest)
    | .error r => .error r
  | [_] => .error .tooShort
  | [] => .error .tooShort

/-- A table word laid out in memory order: the 16-bit word whose bit 0 is the table's bit 0, bits from `nbits` up zero,
high byte at the lower address (R59, R80). -/
def tableBytes (nbits w : Nat) : List Byte := bytesOfWord (BitVec.ofNat 16 (w % 2 ^ nbits))

/-- What the decoder reads from a word numbered as the opcode table numbers it. -/
def decodeTableWord (nbits w : Nat) : Option Instr :=
  match decode (tableBytes nbits w) with
  | .ok (i, _) => some i
  | .error _ => none

/-- A word of the formats `op0`, `op0_n` and `x_sub`, and of `xnn`: op, x, low byte. -/
def packXnn (op x : Nibble) (nn : Byte) : Word := op ++ x ++ nn
/-- A word of the format `nnn`. -/
def packNnn (op : Nibble) (nnn : Addr) : Word := op ++ nnn
/-- A word of the formats `xy`, `xy_alu` and `xyn`. -/
def packXyn (op x y n : Nibble) : Word := op ++ x ++ y ++ n

/-- The word of an instruction, from the rows of R96; a bit the row ignores is encoded 0 (log 11). -/
def encode : Instr → Word
  | .cls => packXnn 0x0 0x0 0xE0
  | .ret => packXnn 0x0 0x0 0xEE
  | .scd n => packXyn 0x0 0x0 0xC n
  | .scr => packXnn 0x0 0x0 0xFB
  | .scl => packXnn 0x0 0x0 0xFC
  | .exit => packXnn 0x0 0x0 0xFD
  | .low => packXnn 0x0 0x0 0xFE
  | .high => packXnn 0x0 0x0 0xFF
  | .sys nnn => packNnn 0x0 nnn
  | .jp nnn => packNnn 0x1 nnn
  | .call nnn => packNnn 0x2 nnn
  | .seImm x nn => packXnn 0x3 x nn
  | .sneImm x nn => packXnn 0x4 x nn
  | .seReg x y => packXyn 0x5 x y 0x0
  | .ldImm x nn => packXnn 0x6 x nn
  | .addImm x nn => packXnn 0x7 x nn
  | .ldReg x y => packXyn 0x8 x y 0x0
  | .or x y => packXyn 0x8 x y 0x1
  | .and x y => packXyn 0x8 x y 0x2
  | .xor x y => packXyn 0x8 x y 0x3
  | .addReg x y => packXyn 0x8 x y 0x4
  | .sub x y => packXyn 0x8 x y 0x5
  | .shr x y => packXyn 0x8 x y 0x6
  | .subn x y => packXyn 0x8 x y 0x7
  | .shl x y => packXyn 0x8 x y 0xE
  | .sneReg x y => packXyn 0x9 x y 0x0
  | .ldI nnn => packNnn 0xA nnn
  | .jpI nnn => packNnn 0xB nnn
  | .rnd x nn => packXnn 0xC x nn
  | .drw x y n => packXyn 0xD x y n
  | .skp x => packXnn 0xE x 0x9E
  | .sknp x => packXnn 0xE x 0xA1
  | .ldVDt x => packXnn 0xF x 0x07
  | .ldVK x => packXnn 0xF x 0x0A
  | .ldDtV x => packXnn 0xF x 0x15
  | .ldStV x => packXnn 0xF x 0x18
  | .addIV x => packXnn 0xF x 0x1E
  | .ldFV x => packXnn 0xF x 0x29
  | .ldHfV x => packXnn 0xF x 0x30
  | .ldBV x => packXnn 0xF x 0x33
  | .ldMemV x => packXnn 0xF x 0x55
  | .ldVMem x => packXnn 0xF x 0x65
  | .ldRV x => packXnn 0xF x 0x75
  | .ldVR x => packXnn 0xF x 0x85

/-- The bits of a word that its row ignores (R96: `?` in a pattern), by the instruction it decodes to. -/
def ignoredBits : Instr → Word
  | .cls | .ret | .scd _ | .scr | .scl | .exit | .low | .high => 0x0F00
  | .seReg _ _ | .sneReg _ _ => 0x000F
  | .sys _ | .jp _ | .call _ | .seImm _ _ | .sneImm _ _ | .jpI _ => 0
  | .ldImm _ _ | .addImm _ _ | .ldReg _ _ | .or _ _ | .and _ _ | .xor _ _ => 0
  | .addReg _ _ | .sub _ _ | .shr _ _ | .subn _ _ | .shl _ _ | .rnd _ _ => 0
  | .ldI _ | .addIV _ | .ldFV _ | .ldHfV _ | .ldBV _ | .ldMemV _ | .ldVMem _ | .ldRV _ | .ldVR _ => 0
  | .skp _ | .sknp _ | .ldVDt _ | .ldVK _ | .ldDtV _ | .ldStV _ => 0
  | .drw _ _ _ => 0

end Sys2Proof
end

