-- ==== Sys2Proof/Config.lean ====
section
/-! DEFINITION. What is fixed for the machine: the parameters of R10 with a value, the two open parameters, and the
free values of the inputs the host draws (R16). -/

namespace Sys2Proof

/-- `MEM_SIZE` (R10). -/
@[simp] abbrev Config.memSize : Nat := 4096

/-- `PROGRAM_START` (R10). -/
@[simp] abbrev Config.programStart : Nat := 0x200

/-- `STACK_BASE` (R10). -/
@[simp] abbrev Config.stackBase : Nat := 0x052

/-- `FONT_LO_BASE` (R10). -/
@[simp] abbrev Config.fontLoBase : Nat := 0x000

/-- `LO_GLYPH_BYTES` (R10). -/
@[simp] abbrev Config.loGlyphBytes : Nat := 5

/-- `HI_GLYPH_BYTES` (R10). -/
@[simp] abbrev Config.hiGlyphBytes : Nat := 10

/-- The horizontal scroll amount in columns (R10). -/
@[simp] abbrev Config.scrollColumns : Nat := 4

/-- The two open parameters of R10, each bounded by its type exactly as R10 constrains it, so that no claim needs the
constraint as a hypothesis (log 4, log 5). -/
structure Params where
  /-- Bytes of the stack region beyond its first frame: `STACK_END = STACK_BASE + 2 + stackRoom <= 0x1000`. -/
  stackRoom  : Fin 4013
  /-- `FONT_HI_BASE`, with `FONT_HI_BASE + 160 <= 0x1000`. -/
  fontHiBase : Fin 3937
  deriving DecidableEq, Repr

/-- `STACK_END`, the exclusive upper end of the stack region (R10, D6). -/
def Params.stackEnd (p : Params) : Nat := p.stackRoom.val + (Config.stackBase + 2)

/-- The open room of the stack region: no value is known of it but its bound (log 4). -/
opaque Config.stackRoom : Fin 4013

/-- The open base of the high-resolution font: no value is known of it but its bound (log 5). -/
opaque Config.fontHiBase : Fin 3937

/-- The machine's open parameters. -/
def Config.params : Params := { stackRoom := Config.stackRoom, fontHiBase := Config.fontHiBase }

/-- Free value: the key vector `Keys` of the n-th step when the host's list gives none (R16, U6, log 2). -/
opaque Config.freeKeys : Nat → Word

/-- Free value: the byte `Rand` of the n-th step when the host's list gives none (R16, D30, U5, log 2). -/
opaque Config.freeRand : Nat → Byte

end Sys2Proof
end

