-- ==== Sys2Proof/Machine/State.lean ====
section
/-! DEFINITION. The state of one core instance as plain data: the tuple of R20 (`Arch`), the host's side of the
interface (`HostSide`), and the two open parameters of the machine. -/

namespace Sys2Proof.Machine

/-- The display mode (R35). -/
inductive Mode where
  | normal
  | extended
  deriving DecidableEq, Repr

/-- `W` (R36). -/
def Mode.width : Mode → Nat
  | .normal => 64
  | .extended => 128

/-- `H` (R36). -/
def Mode.height : Mode → Nat
  | .normal => 32
  | .extended => 64

/-- The two errors (R270), with what each records (R274). Both are raised inside a step and latched in the state
(R125), so the machine answers a NEXT state for them and its outcome `fault` is never used (log 6). -/
inductive Fault where
  /-- Raised by a memory primitive whose range leaves [0, 4096), by CALL past STACK_END and by RET on an empty stack
  (R271): first address and byte count. Safe: the spec gives the whole behaviour. -/
  | addressError (addr len : Nat)
  /-- Raised by decode for the words of R90 (R272): the word. Safe: the spec gives the whole behaviour. -/
  | unknownOpcode (w : Word)
  deriving DecidableEq, Repr

/-- Why the machine has no meaning to give. -/
inductive Refusal where
  /-- Raised by an arm of `exec` whose instruction has no meaning yet. Safe. No arm raises it. -/
  | notModelled (mnemonic : String)
  /-- Raised by the host's `load` after the first step, to which the spec gives no meaning (R112, D27, U11). Safe:
  nothing can be proved of what would follow. -/
  | loadAfterFirstStep
  deriving DecidableEq, Repr

/-- What a byte of memory that is not listed reads as: memory is zero-initialized (R42, R50). -/
abbrev unlisted : Byte := 0x00

/-- Memory (R50): the cells that do not hold the reset value 0x00 (R42), addresses strictly rising. -/
abbrev Memory := List Host.Cell

/-- Sixteen registers of 8 bits: `V` and `RPL` (R22, R32). -/
abbrev RegFile := Vector Byte 16

/-- The framebuffer: rows from the top, each a list of pixels from the left (R36, R37). -/
abbrev Framebuffer := List (List Bool)

/-- The framebuffer of a mode with every pixel off (R42, R249, R250). -/
def Framebuffer.blank (m : Mode) : Framebuffer := List.replicate m.height (List.replicate m.width false)

/-- The registers the host's accessors name (R116). -/
inductive RegName where
  | v (x : Nibble)
  | rpl (x : Nibble)
  | i
  | pc
  | sp
  deriving DecidableEq, Repr

/-- The transactions of the block (R110). -/
inductive Transaction where
  | reset
  | load (addr : Nat) (bytes : List Byte)
  /-- `opndIn` is the injected word (R120); `keys` and `rand` are the step's inputs, `none` where the host's value is
  left free (log 2). -/
  | step (opndIn : Option Word) (keys : Option Word) (rand : Option Byte)
  | tick
  | keyPress (k : Nibble)
  | observe
  | getReg (r : RegName)
  | setReg (r : RegName) (value : Nat)
  deriving DecidableEq, Repr

/-- The status of a step (R113). -/
inductive Status where
  | executed
  | awaitingKey
  | halted
  | faulted (e : Fault)
  deriving DecidableEq, Repr

/-- What the host reads between transactions (R116). -/
structure Observation where
  fb          : Framebuffer
  width       : Nat
  height      : Nat
  mode        : Mode
  soundActive : Bool
  running     : Bool
  fault       : Option Fault
  v           : RegFile
  rpl         : RegFile
  i           : Addr
  pc          : Addr
  sp          : Word
  dt          : Byte
  st          : Byte
  deriving DecidableEq, Repr

/-- The answer of a transaction to the host (R110). -/
inductive Response where
  /-- No transaction has answered yet, or the transaction answers nothing. -/
  | none
  /-- `(status, opnd_out)` of a step (R113, R124). -/
  | stepped (status : Status) (opndOut : Option Word)
  /-- ok, or the `AddressError` of a load out of range (R112). -/
  | loaded (err : Option Fault)
  | observed (o : Observation)
  /-- The value `getReg` reads (R116). -/
  | regValue (value : Nat)
  /-- A `setReg` that is refused and stores nothing (R116, D33). -/
  | setRefused
  deriving DecidableEq, Repr

/-- The state tuple of R20, in its order. -/
structure Arch where
  mem     : Memory
  v       : RegFile
  i       : Addr
  pc      : Addr
  sp      : Word
  rpl     : RegFile
  dt      : Byte
  st      : Byte
  mode    : Mode
  fb      : Framebuffer
  running : Bool
  await   : Option Nibble
  fault   : Option Fault
  deriving DecidableEq, Repr

/-- The host's side of the interface: the model's own fields (log 1, log 2, log 7, log 9). -/
structure HostSide where
  /-- Transactions the host has issued and the block has not yet performed, oldest first (R126). -/
  pending  : List Transaction
  /-- How many `step` transactions there have been: the argument of the free values. -/
  inputIx  : Nat
  /-- `Keys` of the current step, `none` for the free value. -/
  keysIn   : Option Word
  /-- `Rand` of the current step, `none` for the free value. -/
  randIn   : Option Byte
  /-- Whether a `step` has been made since reset (R112). -/
  started  : Bool
  /-- The answer of the last transaction. -/
  response : Response
  deriving DecidableEq, Repr

structure State extends Arch, HostSide where
  /-- STACK_END and FONT_HI_BASE: no transaction changes them. -/
  params : Params
  deriving DecidableEq, Repr

/-- What a meaning or a transaction answers. -/
abbrev Result := Host.Outcome State Fault Refusal

/-- The tuple of R20 after reset (R42, R300, R301). -/
def Arch.reset : Arch where
  mem     := []
  v       := Vector.replicate 16 0x00
  i       := 0x000
  pc      := 0x200
  sp      := 0x0052
  rpl     := Vector.replicate 16 0x00
  dt      := 0x00
  st      := 0x00
  mode    := .normal
  fb      := Framebuffer.blank .normal
  running := true
  await   := none
  fault   := none

/-- The machine right after reset. The host's side holds DESIGN CHOICE values: nothing issued, nothing answered. -/
def State.reset : State where
  toArch   := Arch.reset
  pending  := []
  inputIx  := 0
  keysIn   := none
  randIn   := none
  started  := false
  response := .none
  params   := Config.params

end Sys2Proof.Machine
end

