-- ==== Sys2Proof/Machine/Ops.lean ====
section
/-! DEFINITION. The shared operations: memory and its checked primitives (R50 to R58), register access with its masks
(R13), raising an error (R15, R123, R125), and answering the host. -/

namespace Sys2Proof.Machine

/-! ## Memory -/

/-- The byte at an address: the listed one, or the reset value (R42, R50). -/
def Memory.read : Memory → Nat → Byte
  | [], _ => unlisted
  | (b, v) :: m, a => if a = b then v else Memory.read m a

/-- Memory with nothing listed at `a`. -/
def Memory.erase (m : Memory) (a : Nat) : Memory := m.filter fun c => c.1 != a

/-- A cell put before the first address above it. -/
def Memory.insert : Memory → Nat → Byte → Memory
  | [], a, v => [(a, v)]
  | (b, u) :: m, a, v => if a < b then (a, v) :: (b, u) :: m else (b, u) :: Memory.insert m a v

/-- One byte written, in canonical form: a byte that holds the reset value is not listed. -/
def Memory.put (m : Memory) (a : Nat) (v : Byte) : Memory :=
  if v = unlisted then m.erase a else (m.erase a).insert a v

/-- Consecutive bytes written from `a` up. -/
def Memory.putAll : Memory → Nat → List Byte → Memory
  | m, _, [] => m
  | m, a, v :: vs => Memory.putAll (m.put a v) (a + 1) vs

/-- Canonical form from an address up: rising addresses inside the address space, no byte at its reset value. -/
def Memory.wfFrom : Nat → Memory → Bool
  | _, [] => true
  | lo, (a, v) :: m => decide (lo ≤ a) && decide (a < Config.memSize) && v != unlisted && Memory.wfFrom (a + 1) m

/-- Memory is in its canonical form. -/
def Memory.wf (m : Memory) : Bool := Memory.wfFrom 0 m

/-- The range check every primitive makes before it reads or writes a cell (R58): `n` bytes from `a` lie inside
[0, 4096). Zero bytes always do. -/
def checkRange (a n : Nat) : Except Fault Unit :=
  if 0 < n ∧ Config.memSize ≤ a + n - 1 then .error (.addressError a n) else .ok ()

/-- `MemRead(a, 1)` (R52). -/
def Memory.read8 (m : Memory) (a : Nat) : Except Fault Byte := do
  checkRange a 1
  return m.read a

/-- `MemRead(a, 2)`: big-endian (R53, R59). -/
def Memory.read16 (m : Memory) (a : Nat) : Except Fault Word := do
  checkRange a 2
  return m.read a ++ m.read (a + 1)

/-- `MemReadBlock(a, n)` (R54). -/
def Memory.readBlock (m : Memory) (a n : Nat) : Except Fault (List Byte) := do
  checkRange a n
  return (List.range n).map fun k => m.read (a + k)

/-- `MemWrite(a, 1, v)`: `v mod 256` (R55). -/
def Memory.write8 (m : Memory) (a v : Nat) : Except Fault Memory := do
  checkRange a 1
  return m.put a (BitVec.ofNat 8 v)

/-- `MemWrite(a, 2, v)`: big-endian, each byte mod 256 (R56). No instruction uses it. -/
def Memory.write16 (m : Memory) (a v : Nat) : Except Fault Memory := do
  checkRange a 2
  return (m.put a (BitVec.ofNat 8 (v >>> 8))).put (a + 1) (BitVec.ofNat 8 v)

/-- `MemWriteBlock(a, bs)` (R57). -/
def Memory.writeBlock (m : Memory) (a : Nat) (bs : List Byte) : Except Fault Memory := do
  checkRange a bs.length
  return m.putAll a bs

/-! ## Registers -/

/-- `V[x]` (R13, R22). -/
def State.getV (s : State) (x : Nibble) : Byte := s.v[x.toNat]'x.isLt

/-- `V[x] <- b` (R13, R22). -/
def State.setV (s : State) (x : Nibble) (b : Byte) : State := { s with v := s.v.set x.toNat b x.isLt }

/-- `RPL[x]` (R13, R32). -/
def State.getRpl (s : State) (x : Nibble) : Byte := s.rpl[x.toNat]'x.isLt

/-- `RPL[x] <- b` (R13, R32). -/
def State.setRpl (s : State) (x : Nibble) (b : Byte) : State := { s with rpl := s.rpl.set x.toNat b x.isLt }

/-- The register index of VF (R23). -/
def vf : Nibble := 0xF

/-- `I <- v`, which writes `v mod 4096` (R13, R25). -/
def State.setI (s : State) (v : Nat) : State := { s with i := BitVec.ofNat 12 v }

/-- `pc <- v`, which writes `v mod 4096` (R13, R26). -/
def State.setPc (s : State) (v : Nat) : State := { s with pc := BitVec.ofNat 12 v }

/-- `skip()`: two bytes further, whatever they hold (R140). -/
def State.skip (s : State) : State := s.setPc (s.pc.toNat + 2)

/-- A skip taken when its condition holds. -/
def State.skipIf (s : State) (c : Bool) : State := { s with pc := if c then s.skip.pc else s.pc }

/-! ## Errors -/

/-- Taking an error, the one operation for both kinds (R15, R125, R278): nothing is saved, nothing is entered, the
error is latched. -/
def State.raise (s : State) (e : Fault) : State := { s with fault := some e }

/-- An effect that may raise: its next state, or the state before it with the error latched, so that no write made on
the way is kept (R15, R123). The step that runs it also puts `pc` back (log 6). -/
def orRaise (s : State) : Except Fault State → Result
  | .ok t => .next t
  | .error e => .next (s.raise e)

/-! ## Answers -/

/-- The answer of a transaction to the host. -/
def State.respond (s : State) (r : Response) : State := { s with response := r }

/-- The numeric code of a status (R270, D4). -/
def Status.code : Status → Nat
  | .executed => 0
  | .awaitingKey => 1
  | .halted => 2
  | .faulted _ => 3

/-- The numeric code of an error kind (R270, D4). -/
def Fault.code : Fault → Nat
  | .addressError _ _ => 1
  | .unknownOpcode _ => 2

end Sys2Proof.Machine
end

