-- ==== Sys2Proof/Machine/Flags.lean ====
section
/-! DEFINITION. Every flag the instructions put in VF (R23, R173), each from the exact integers before any wrap. -/

namespace Sys2Proof.Machine

/-- A condition as the byte written to VF. -/
def flag (c : Bool) : Byte := if c then 1 else 0

/-- Carry of an addition: the sum passes 255 (R167). -/
def carryFlag (a b : Byte) : Byte := flag (decide (255 < a.toNat + b.toNat))

/-- The flag of `a - b`: 1 only when `a` is strictly greater, so equal operands give 0 (R168, R170). -/
def greaterFlag (a b : Byte) : Byte := flag (decide (b.toNat < a.toNat))

/-- The bit a right shift moves out: bit 0 (R169). -/
def bit0Flag (a : Byte) : Byte := flag (a.getLsbD 0)

/-- The bit a left shift moves out: bit 7 (R171). -/
def bit7Flag (a : Byte) : Byte := flag (a.getLsbD 7)

/-- The collision flag of a sprite, one for the whole draw (R244). -/
def collisionFlag (collided : Bool) : Byte := flag collided

/-- A result and then the flag: VF is written last and wins (R23, R162, R173). -/
def State.setResultAndFlag (s : State) (r : Nibble) (result f : Byte) : State := (s.setV r result).setV vf f

end Sys2Proof.Machine
end

