-- ==== Sys2Proof/Machine/Operands.lean ====
section
/-! DEFINITION. The operand forms: register prefixes, key and random inputs, glyph addresses, decimal digits, stack
addresses and sprite rows (R82, R199). Immediates and addresses are fields of the instruction, used unsigned. -/

namespace Sys2Proof.Machine

/-! ## Inputs of the step -/

/-- `Keys` of the current step (R16, R222): the host's vector, or the free value of this step (log 2). -/
def State.keys (s : State) : Word := s.keysIn.getD (Config.freeKeys s.inputIx)

/-- `Rand` of the current step (R16, R172): the host's byte, or the free value of this step (log 2). -/
def State.rand (s : State) : Byte := s.randIn.getD (Config.freeRand s.inputIx)

/-- `pressed(k)`: a value above 15 names no key and is never pressed (R222, D12). -/
def State.pressed (s : State) (k : Byte) : Bool := decide (k.toNat ≤ 15) && s.keys.getLsbD k.toNat

/-! ## Register prefixes -/

/-- `[V[0], ..., V[x]]` (R195). -/
def State.firstRegs (s : State) (x : Nibble) : List Byte := s.v.toList.take (x.toNat + 1)

/-- A register file with its first registers taken from a list, the others kept (R196). -/
def RegFile.loadList (f : RegFile) (bs : List Byte) : RegFile :=
  Vector.ofFn fun k => bs.getD k.val f[k]

/-- A register file with registers `0..x` taken from another, the others kept (R197, R198). -/
def RegFile.copyFirst (f src : RegFile) (x : Nibble) : RegFile :=
  Vector.ofFn fun k => if k.val ≤ x.toNat then src[k] else f[k]

/-! ## Addresses -/

/-- The address of the low-resolution glyph of a digit; the digit is the whole byte (R192, D13). -/
def loGlyph (digit : Byte) : Nat := Config.fontLoBase + digit.toNat * Config.loGlyphBytes

/-- The address of the high-resolution glyph of a digit (R193, D13, D14). -/
def hiGlyph (p : Params) (digit : Byte) : Nat := p.fontHiBase.val + digit.toNat * Config.hiGlyphBytes

/-- Where CALL stores the low byte of the frame; the high byte follows it (R145, R199). -/
abbrev State.pushAddr (s : State) : Nat := s.sp.toNat

/-- Where RET reads the low byte of the frame; the high byte follows it (R141, R199, log 10). -/
abbrev State.popAddr (s : State) : Nat := s.sp.toNat - 2

/-- Where the index instructions read or store (R199). -/
abbrev State.indexAddr (s : State) : Nat := s.i.toNat

/-! ## Values -/

/-- Hundreds, tens and units of a byte (R194). -/
def bcdDigits (v : Byte) : List Byte :=
  [BitVec.ofNat 8 (v.toNat / 100), BitVec.ofNat 8 (v.toNat / 10 % 10), BitVec.ofNat 8 (v.toNat % 10)]

/-- The rows of an 8-wide sprite: one byte each (R241). -/
def spriteRows8 (bs : List Byte) : List Nat := bs.map BitVec.toNat

/-- The rows of a 16-wide sprite: two bytes each, the left half first (R242). -/
def spriteRows16 : List Byte → List Nat
  | b0 :: b1 :: bs => (b0.toNat <<< 8 ||| b1.toNat) :: spriteRows16 bs
  | [_] => []
  | [] => []

end Sys2Proof.Machine
end

