-- ==== Sys2Proof/Machine/Arithmetic.lean ====
section
/-! DEFINITION. The register and arithmetic instructions (R160 to R173). Sums and differences are exact integers,
narrowed when they are stored. -/

namespace Sys2Proof.Machine

/-- LD Vx, nn (R160). -/
def execLdImm (x : Nibble) (nn : Byte) (s : State) : Result := .next (s.setV x nn)

/-- ADD Vx, nn: wraps, no flag (R161). -/
def execAddImm (x : Nibble) (nn : Byte) (s : State) : Result :=
  .next (s.setV x (BitVec.ofNat 8 ((s.getV x).toNat + nn.toNat)))

/-- LD Vx, Vy (R163). -/
def execLdReg (x y : Nibble) (s : State) : Result := .next (s.setV x (s.getV y))

/-- OR Vx, Vy: VF is not written (R164). -/
def execOr (x y : Nibble) (s : State) : Result := .next (s.setV x (s.getV x ||| s.getV y))

/-- AND Vx, Vy: VF is not written (R165). -/
def execAnd (x y : Nibble) (s : State) : Result := .next (s.setV x (s.getV x &&& s.getV y))

/-- XOR Vx, Vy: VF is not written (R166). -/
def execXor (x y : Nibble) (s : State) : Result := .next (s.setV x (s.getV x ^^^ s.getV y))

/-- ADD Vx, Vy with carry out (R167). -/
def execAddReg (x y : Nibble) (s : State) : Result :=
  .next (s.setResultAndFlag x (BitVec.ofNat 8 ((s.getV x).toNat + (s.getV y).toNat)) (carryFlag (s.getV x) (s.getV y)))

/-- What SUB and SUBN store: the difference, or 256 plus it when the minuend is not the greater (R168, R170). -/
def difference (a b : Byte) : Byte :=
  if b.toNat < a.toNat then BitVec.ofNat 8 (a.toNat - b.toNat) else BitVec.ofNat 8 (256 + a.toNat - b.toNat)

/-- SUB Vx, Vy: V[x] - V[y] (R168). -/
def execSub (x y : Nibble) (s : State) : Result :=
  .next (s.setResultAndFlag x (difference (s.getV x) (s.getV y)) (greaterFlag (s.getV x) (s.getV y)))

/-- SHR Vx, Vy: reads V[x], writes V[y] (R169, C1). -/
def execShr (x y : Nibble) (s : State) : Result :=
  .next (s.setResultAndFlag y (BitVec.ofNat 8 ((s.getV x).toNat >>> 1)) (bit0Flag (s.getV x)))

/-- SUBN Vx, Vy: V[y] - V[x] into V[x] (R170). -/
def execSubn (x y : Nibble) (s : State) : Result :=
  .next (s.setResultAndFlag x (difference (s.getV y) (s.getV x)) (greaterFlag (s.getV y) (s.getV x)))

/-- SHL Vx, Vy: reads V[x], writes V[y] (R171, C1). -/
def execShl (x y : Nibble) (s : State) : Result :=
  .next (s.setResultAndFlag y (BitVec.ofNat 8 ((s.getV x).toNat <<< 1)) (bit7Flag (s.getV x)))

/-- RND Vx, nn: the step's random byte under the mask (R172). -/
def execRnd (x : Nibble) (nn : Byte) (s : State) : Result := .next (s.setV x (nn &&& s.rand))

end Sys2Proof.Machine
end

