-- ==== Sys2Proof/Machine/ControlFlow.lean ====
section
/-! DEFINITION. The control-flow instructions (R140 to R151). `pc` is the advanced value (R132). -/

namespace Sys2Proof.Machine

/-- RET (R141): underflow check, low byte at `sp-2`, high byte at `sp-1`, then `sp <- sp - 2`. -/
def execRet (s : State) : Result := orRaise s do
  if s.sp.toNat < Config.stackBase + 2 then throw (.addressError s.popAddr 2)
  let lo ← s.mem.read8 s.popAddr
  let hi ← s.mem.read8 (s.popAddr + 1)
  return { s.setPc (hi.toNat <<< 8 ||| lo.toNat) with sp := s.sp - 2 }

/-- EXIT (R142). -/
def execExit (s : State) : Result := .next { s with running := false }

/-- SYS, a no-op (R91, R143). -/
def execSys (_nnn : Addr) (s : State) : Result := .next s

/-- JP (R144). -/
def execJp (nnn : Addr) (s : State) : Result := .next (s.setPc nnn.toNat)

/-- CALL (R145): overflow check, then the return address low byte first, `sp` one up after each byte, then the jump. -/
def execCall (nnn : Addr) (s : State) : Result := orRaise s do
  if s.params.stackEnd < s.sp.toNat + 2 then throw (.addressError s.pushAddr 2)
  let m ← s.mem.write8 s.pushAddr (s.pc.toNat &&& 0xFF)
  let m ← m.write8 (s.pushAddr + 1) (s.pc.toNat >>> 8)
  return { s.setPc nnn.toNat with mem := m, sp := s.sp + 1 + 1 }

/-- SE Vx, nn (R146). -/
def execSeImm (x : Nibble) (nn : Byte) (s : State) : Result := .next (s.skipIf (s.getV x == nn))

/-- SNE Vx, nn (R147). -/
def execSneImm (x : Nibble) (nn : Byte) (s : State) : Result := .next (s.skipIf (s.getV x != nn))

/-- SE Vx, Vy (R148). -/
def execSeReg (x y : Nibble) (s : State) : Result := .next (s.skipIf (s.getV x == s.getV y))

/-- SNE Vx, Vy (R149). -/
def execSneReg (x y : Nibble) (s : State) : Result := .next (s.skipIf (s.getV x != s.getV y))

/-- JP I, nnn: the base is `I`, not `V[0]` (R150). -/
def execJpI (nnn : Addr) (s : State) : Result := .next (s.setPc (s.i.toNat + nnn.toNat))

end Sys2Proof.Machine
end

