-- ==== Sys2Proof/Machine/Display.lean ====
section
/-! DEFINITION. The framebuffer operations, the sprite rasterizer and the display instructions (R240 to R252). -/

namespace Sys2Proof.Machine

/-- `fb[y][x]`; a pixel that is not there reads as off, which no instruction asks for (R36). -/
def Framebuffer.pixel (g : Framebuffer) (x y : Nat) : Bool := (g.getD y []).getD x false

/-- `fb[y][x] <- b`. -/
def Framebuffer.setPixel (g : Framebuffer) (x y : Nat) (b : Bool) : Framebuffer := g.modify y fun row => row.set x b

/-- The grid of a mode's size whose pixels a function gives: `for all X < W, Y < H`. -/
def Framebuffer.tabulate (m : Mode) (f : Nat → Nat → Bool) : Framebuffer :=
  (List.range m.height).map fun y => (List.range m.width).map fun x => f x y

/-- Bit `c` of a row of `cols` bits, column 0 leftmost (R241, R242, R243). -/
def spriteBit (data : List Nat) (cols r c : Nat) : Bool := (data.getD r 0).testBit (cols - 1 - c)

/-- One sprite pixel, at toroidal coordinates: the collision found so far and the pixel XORed (R240, R243). -/
def blitPixel (m : Mode) (px py cols : Nat) (data : List Nat) (g : Framebuffer × Bool) (rc : Nat × Nat) :
    Framebuffer × Bool :=
  let bit := spriteBit data cols rc.1 rc.2
  let x := (px + rc.2) % m.width
  let y := (py + rc.1) % m.height
  (g.1.setPixel x y (g.1.pixel x y ^^ bit), g.2 || (g.1.pixel x y && bit))

/-- The offsets of a sprite in the order the blit visits them: rows, and columns within a row (R243). -/
def spriteOffsets (rows cols : Nat) : List (Nat × Nat) :=
  (List.range rows).flatMap fun r => (List.range cols).map fun c => (r, c)

/-- The blit (R243): the framebuffer drawn on, and whether any pixel went from on to off. -/
def blit (m : Mode) (px py rows cols : Nat) (data : List Nat) (g : Framebuffer) : Framebuffer × Bool :=
  (spriteOffsets rows cols).foldl (blitPixel m px py cols data) (g, false)

/-- CLS (R245). -/
def execCls (s : State) : Result := .next { s with fb := Framebuffer.tabulate s.mode fun _ _ => false }

/-- SCD n: rows of the current resolution, zero fill (R246, D19). -/
def execScd (n : Nibble) (s : State) : Result :=
  .next { s with fb := Framebuffer.tabulate s.mode fun x y =>
    if n.toNat ≤ y then s.fb.pixel x (y - n.toNat) else false }

/-- SCR: 4 columns, zero fill (R247, D19). -/
def execScr (s : State) : Result :=
  .next { s with fb := Framebuffer.tabulate s.mode fun x y =>
    if Config.scrollColumns ≤ x then s.fb.pixel (x - Config.scrollColumns) y else false }

/-- SCL: 4 columns, zero fill (R248, D19). -/
def execScl (s : State) : Result :=
  .next { s with fb := Framebuffer.tabulate s.mode fun x y =>
    if x + Config.scrollColumns < s.mode.width then s.fb.pixel (x + Config.scrollColumns) y else false }

/-- A mode selected, and its framebuffer cleared even when the mode does not change (R249, R250, D20). -/
def State.selectMode (s : State) (m : Mode) : State := { s with mode := m, fb := Framebuffer.blank m }

/-- LOW (R249). -/
def execLow (s : State) : Result := .next (s.selectMode .normal)

/-- HIGH (R250). -/
def execHigh (s : State) : Result := .next (s.selectMode .extended)

/-- A sprite drawn at `(V[x], V[y])`, then the collision flag to VF (R243, R244, R251). -/
def State.drawSprite (s : State) (x y : Nibble) (rows cols : Nat) (data : List Nat) : State :=
  let drawn := blit s.mode (s.getV x).toNat (s.getV y).toNat rows cols data s.fb
  { s with fb := drawn.1 }.setV vf (collisionFlag drawn.2)

/-- DRW draws the 16x16 form (R251). -/
def drawsWide (m : Mode) (n : Nibble) : Bool := m == .extended && n == 0

/-- DRW Vx, Vy, n (R251). -/
def execDrw (x y n : Nibble) (s : State) : Result := orRaise s do
  if drawsWide s.mode n then
    let bs ← s.mem.readBlock s.indexAddr 32
    return s.drawSprite x y 16 16 (spriteRows16 bs)
  else
    let bs ← s.mem.readBlock s.indexAddr n.toNat
    return s.drawSprite x y n.toNat 8 (spriteRows8 bs)

end Sys2Proof.Machine
end

