-- ==== Sys2Proof/Machine/MemoryIndex.lean ====
section
/-! DEFINITION. The index, memory and RPL instructions (R190 to R199). None of them changes `I` but those that
name it as their destination (D23). -/

namespace Sys2Proof.Machine

/-- LD I, nnn (R190). -/
def execLdI (nnn : Addr) (s : State) : Result := .next (s.setI nnn.toNat)

/-- ADD I, Vx: VF is not written (R191). -/
def execAddIV (x : Nibble) (s : State) : Result := .next (s.setI (s.i.toNat + (s.getV x).toNat))

/-- LD F, Vx (R192). -/
def execLdFV (x : Nibble) (s : State) : Result := .next (s.setI (loGlyph (s.getV x)))

/-- LD HF, Vx, in both modes (R193). -/
def execLdHfV (x : Nibble) (s : State) : Result := .next (s.setI (hiGlyph s.params (s.getV x)))

/-- LD B, Vx: hundreds, tens, units at `I`, `I+1`, `I+2` (R194). -/
def execLdBV (x : Nibble) (s : State) : Result := orRaise s do
  let m ← s.mem.writeBlock s.indexAddr (bcdDigits (s.getV x))
  return { s with mem := m }

/-- LD [I], Vx: stores V[0..x] (R195). -/
def execLdMemV (x : Nibble) (s : State) : Result := orRaise s do
  let m ← s.mem.writeBlock s.indexAddr (s.firstRegs x)
  return { s with mem := m }

/-- LD Vx, [I]: loads V[0..x] (R196). -/
def execLdVMem (x : Nibble) (s : State) : Result := orRaise s do
  let bs ← s.mem.readBlock s.indexAddr (x.toNat + 1)
  return { s with v := s.v.loadList bs }

/-- LD R, Vx: saves V[0..x] (R197). -/
def execLdRV (x : Nibble) (s : State) : Result := .next { s with rpl := s.rpl.copyFirst s.v x }

/-- LD Vx, R: restores V[0..x] (R198). -/
def execLdVR (x : Nibble) (s : State) : Result := .next { s with v := s.v.copyFirst s.rpl x }

end Sys2Proof.Machine
end

