-- ==== Sys2Proof/Machine/TimersKeys.lean ====
section
/-! DEFINITION. The timer and keyboard instructions (R220 to R226), and what the host's `tick` and `keyPress` do to the
core (R115, R227). -/

namespace Sys2Proof.Machine

/-- SKP Vx (R220). -/
def execSkp (x : Nibble) (s : State) : Result := .next (s.skipIf (s.pressed (s.getV x)))

/-- SKNP Vx (R221). -/
def execSknp (x : Nibble) (s : State) : Result := .next (s.skipIf (!s.pressed (s.getV x)))

/-- LD Vx, DT (R223). -/
def execLdVDt (x : Nibble) (s : State) : Result := .next (s.setV x s.dt)

/-- LD Vx, K: the wait begins; `pc` is already past the instruction (R224). -/
def execLdVK (x : Nibble) (s : State) : Result := .next { s with await := some x }

/-- LD DT, Vx (R225). -/
def execLdDtV (x : Nibble) (s : State) : Result := .next { s with dt := s.getV x }

/-- LD ST, Vx (R226). -/
def execLdStV (x : Nibble) (s : State) : Result := .next { s with st := s.getV x }

/-- A counter one down, held at 0 (R227). -/
def countDown (b : Byte) : Byte := if 0 < b.toNat then BitVec.ofNat 8 (b.toNat - 1) else b

/-- `tick()`, accepted in every state (R114, R227). -/
def State.tick (s : State) : State := { s with dt := countDown s.dt, st := countDown s.st }

/-- `keyPress(k)`: ends a key wait; otherwise the event is lost (R115). -/
def State.keyPress (s : State) (k : Nibble) : State :=
  match s.fault, s.running, s.await with
  | none, true, some x => { s.setV x (BitVec.ofNat 8 k.toNat) with await := none }
  | _, _, _ => s

end Sys2Proof.Machine
end

