-- ==== Sys2Proof/Machine/Orchestrator.lean ====
section
/-! DEFINITION. The one-instruction step and the host's transactions (R110 to R131). -/

namespace Sys2Proof.Machine

/-! ## The step -/

/-- Fetch (R119): the word at `pc`, `pc+1`. -/
def State.fetch (s : State) : Except Fault Word := s.mem.read16 s.pc.toNat

/-- Advance (R121): `pc <- pc + 2`, so 0xFFE advances to 0x000. -/
def State.advance (s : State) : State := s.setPc (s.pc.toNat + 2)

/-- The inputs of a step sampled (R16, R113), before anything of the core changes. -/
def State.sample (s : State) (keys : Option Word) (rand : Option Byte) : State :=
  { s with started := true, inputIx := s.inputIx + 1, keysIn := keys, randIn := rand }

/-- A failed step (R123, R125): the state before it, with the error latched and answered. -/
def State.fail (s0 : State) (e : Fault) : State := (s0.raise e).respond (.stepped (.faulted e) none)

/-- The status of a step that succeeded (R118). -/
def State.doneStatus (t : State) : Status := if t.await.isSome then .awaitingKey else .executed

/-- How a step ends: rolled back to `s0` when the execute phase raised, else answered with the consumed word
(R118, R123, R124). -/
def finishStep (s0 : State) (w : Word) : Result → Result
  | .next t =>
    match t.fault with
    | some e => .next (s0.fail e)
    | none => .next (t.respond (.stepped t.doneStatus (some w)))
  | .fault r => .fault r
  | .refused r => .refused r

/-- Decode and execute (R122): `s0` is the state before the step, `s1` the state the instruction sees. -/
def runWord (s0 s1 : State) (w : Word) : Result :=
  match decodeWord w with
  | .ok i => finishStep s0 w (exec i s1)
  | .error _ => .next (s0.fail (.unknownOpcode w))

/-- The step that is not stopped: an injected word runs without fetch or advance (R120), else the word at `pc` (R119,
R121). -/
def runStep (s0 : State) : Option Word → Result
  | some w => runWord s0 s0 w
  | none =>
    match s0.fetch with
    | .ok w => runWord s0 s0.advance w
    | .error e => .next (s0.fail e)

/-- The stop state of the core, if it is in one: faulted, halted or awaiting a key, in the order R118 asks
(R125, R127, R128, R286). -/
def State.stopStatus (s : State) : Option Status :=
  match s.fault with
  | some e => some (.faulted e)
  | none => if s.running then (if s.await.isSome then some .awaitingKey else none) else some .halted

/-- `step(opnd_in, Keys, Rand)` (R113, R118): in a stop state nothing of the core changes. -/
def stepTransaction (opndIn : Option Word) (keys : Option Word) (rand : Option Byte) (s : State) : Result :=
  let s0 := s.sample keys rand
  match s0.stopStatus with
  | some st => .next (s0.respond (.stepped st none))
  | none => runStep s0 opndIn

/-! ## The other transactions -/

/-- `reset` (R111, R300): the tuple of R20 takes its reset values, whatever it was. The machine's parameters, the
host's list and the count that makes the free values fresh are not the core's, and stay (log 8). -/
def resetTransaction (s : State) : State :=
  { s with toArch := Arch.reset, keysIn := none, randIn := none, started := false, response := .none }

/-- `load(a, bs)` (R112): before the first step only; an error is the host's and latches nothing. -/
def loadTransaction (a : Nat) (bs : List Byte) (s : State) : Result :=
  if s.started then .refused .loadAfterFirstStep
  else
    match s.mem.writeBlock a bs with
    | .ok m => .next ({ s with mem := m }.respond (.loaded none))
    | .error e => .next (s.respond (.loaded (some e)))

/-- `sound_active = (ST > 0)` (R34, R116). -/
def State.soundActive (s : State) : Bool := decide (0 < s.st.toNat)

/-- What the host observes (R116). -/
def State.observe (s : State) : Observation where
  fb          := s.fb
  width       := s.mode.width
  height      := s.mode.height
  mode        := s.mode
  soundActive := s.soundActive
  running     := s.running
  fault       := s.fault
  v           := s.v
  rpl         := s.rpl
  i           := s.i
  pc          := s.pc
  sp          := s.sp
  dt          := s.dt
  st          := s.st

/-- `getReg(r)` (R44, R116). -/
def State.getReg (s : State) : RegName → Nat
  | .v x => (s.getV x).toNat
  | .rpl x => (s.getRpl x).toNat
  | .i => s.i.toNat
  | .pc => s.pc.toNat
  | .sp => s.sp.toNat

/-- The values `setReg(sp, v)` stores: in the stack region, at an even offset (R116, D33). -/
def Params.spAllowed (p : Params) (v : Nat) : Bool :=
  decide (Config.stackBase ≤ v) && decide (v ≤ p.stackEnd) && decide ((v - Config.stackBase) % 2 = 0)

/-- `setReg(r, v)`: masked (R13, R44), or for `sp` stored only where it is allowed, and otherwise refused with nothing
stored (R116, log 7). -/
def setRegTransaction (r : RegName) (v : Nat) (s : State) : State :=
  match r with
  | .v x => (s.setV x (BitVec.ofNat 8 v)).respond .none
  | .rpl x => (s.setRpl x (BitVec.ofNat 8 v)).respond .none
  | .i => (s.setI v).respond .none
  | .pc => (s.setPc v).respond .none
  | .sp => if Params.spAllowed s.params v then { s with sp := BitVec.ofNat 16 v }.respond .none else s.respond .setRefused

/-- One transaction, whole (R110, R126). -/
def perform (t : Transaction) (s : State) : Result :=
  match t with
  | .reset => .next (resetTransaction s)
  | .load a bs => loadTransaction a bs s
  | .step opndIn keys rand => stepTransaction opndIn keys rand s
  | .tick => .next (s.tick.respond .none)
  | .keyPress k => .next ((s.keyPress k).respond .none)
  | .observe => .next (s.respond (.observed s.observe))
  | .getReg r => .next (s.respond (.regValue (s.getReg r)))
  | .setReg r v => .next (setRegTransaction r v s)

/-- The next transaction: the oldest the host has issued, or, when it has issued none, a step with no injected operand
and free inputs (R110, R126, log 1). -/
def nextTransaction (s : State) : Result :=
  match s.pending with
  | t :: ts => perform t { s with pending := ts }
  | [] => perform (.step none none none) s

/-- The core readied to fetch the word at `pc` at its very next transaction: nothing else issued, no stop state, and
`pc` not at 0xFFF, where no word can be fetched (R61, R118). -/
def State.ready (s : State) : State :=
  { s with
    pending := []
    fault   := none
    running := true
    await   := none
    pc      := if s.pc = 0xFFF then BitVec.ofNat 12 Config.programStart else s.pc }

/-- Bytes stored where the next step fetches. -/
def State.placeAtPc (s : State) (bs : List Byte) : State := { s with mem := s.mem.putAll s.pc.toNat bs }

end Sys2Proof.Machine
end

