-- ==== Sys2Proof/Machine/Step.lean ====
section
/-! DEFINITION. One step of the machine, and a word placed for it to fetch. -/

namespace Sys2Proof.Machine

/-- One step: one transaction of the block (R110, R117, R126). -/
def step (s : State) : Host.Outcome State Fault Refusal := nextTransaction s

/-- The state with a table word where the next step fetches, ready for that step to run it (log 12). -/
def State.withFetchWord (s : State) (nbits w : Nat) : State := s.ready.placeAtPc (tableBytes nbits w)

end Sys2Proof.Machine
end

