-- ==== Sys2Proof/Safety.lean ====
section
/-! DEFINITION. The terms claims are stated in: the invariant of R43, the states in which a step executes, what a
transition leaves unchanged (R129), and the pixel a sprite covers. -/

namespace Sys2Proof.Machine

/-! ## The invariant (R43) -/

/-- `sp` is in the stack region, at an even offset (R30, R43). -/
abbrev State.SpInRegion (s : State) : Prop :=
  Config.stackBase ≤ s.sp.toNat ∧ s.sp.toNat ≤ s.params.stackEnd ∧ (s.sp.toNat - Config.stackBase) % 2 = 0

/-- `fb` has the size of `mode` (R36, R43). -/
abbrev State.FbSized (s : State) : Prop :=
  s.fb.length = s.mode.height ∧ ∀ row ∈ s.fb, row.length = s.mode.width

/-- `await != none` implies `fault = none` and `running = 1` (R43). -/
abbrev State.WaitsOnlyRunning (s : State) : Prop :=
  s.await ≠ none → s.fault = none ∧ s.running = true

/-- What R43 says of every reachable state, with the canonical form of memory. The bounds R43 gives of `V`, `RPL`,
`DT`, `ST`, `I` and `pc` are their types. -/
abbrev State.Inv (s : State) : Prop :=
  s.mem.wf = true ∧ s.SpInRegion ∧ s.FbSized ∧ s.WaitsOnlyRunning

/-! ## Runs (R131) -/

/-- No stop state: the next `step` transaction executes an instruction (R118). -/
abbrev State.Running (s : State) : Prop := s.fault = none ∧ s.running = true ∧ s.await = none

/-- The machine's next step is a `step` transaction without injected operand that executes an instruction. -/
abbrev State.Ready (s : State) : Prop := s.pending = [] ∧ s.Running

/-- The next transaction is `step(o, k, b)`, and `ts` is issued after it: the oldest the host has issued, or, when it has
issued none, the step with no injected word and free inputs (R113, R126, log 1). -/
abbrev State.NextIsStep (s : State) (o k : Option Word) (b : Option Byte) (ts : List Transaction) : Prop :=
  s.pending = .step o k b :: ts ∨ (s.pending = [] ∧ o = none ∧ k = none ∧ b = none ∧ ts = [])

/-- A run has ended normally (R131). -/
abbrev State.EndedNormally (s : State) : Prop := s.fault = none ∧ s.running = false

/-- A run has ended in error (R131). -/
abbrev State.EndedInError (s : State) : Prop := s.fault ≠ none

/-- The `n` bytes from `a` lie inside [0, 4096) (R58). -/
abbrev InMemory (a n : Nat) : Prop := a + n ≤ 4096

/-! ## Frames (R129) -/

/-- The components of R20. -/
inductive Component where
  | mem | v | i | pc | sp | rpl | dt | st | mode | fb | running | await | fault
  deriving DecidableEq, Repr

/-- A component is the same in two states: memory by the byte at every address, the register files by every register. -/
def Component.Same (s t : State) : Component → Prop
  | .mem => ∀ a, t.mem.read a = s.mem.read a
  | .v => ∀ x, t.getV x = s.getV x
  | .i => t.i = s.i
  | .pc => t.pc = s.pc
  | .sp => t.sp = s.sp
  | .rpl => ∀ x, t.getRpl x = s.getRpl x
  | .dt => t.dt = s.dt
  | .st => t.st = s.st
  | .mode => t.mode = s.mode
  | .fb => t.fb = s.fb
  | .running => t.running = s.running
  | .await => t.await = s.await
  | .fault => t.fault = s.fault

/-- From `s` to `t` nothing changes but the components named: neither another component of R20, nor the host's side,
nor the machine's parameters. -/
def ChangesOnly (changed : List Component) (s t : State) : Prop :=
  (∀ c, c ∉ changed → c.Same s t) ∧ t.toHostSide = s.toHostSide ∧ t.params = s.params

/-- Every general register but those named is unchanged. -/
def KeepsRegsBut (written : List Nibble) (s t : State) : Prop := ∀ r, r ∉ written → t.getV r = s.getV r

/-- Every byte of memory outside the `n` bytes from `a` reads as before. -/
def KeepsBytesOutside (a n : Nat) (s t : State) : Prop :=
  ∀ b, (b < a ∨ a + n ≤ b) → t.mem.read b = s.mem.read b

/-! ## What each instruction may write and raise -/

/-- The bytes an instruction stores to, as first address and count, when it raises no error (R62). -/
def storesTo (s : State) : Instr → Nat × Nat
  | .call _ => (s.pushAddr, 2)
  | .ldBV _ => (s.indexAddr, 3)
  | .ldMemV x => (s.indexAddr, x.toNat + 1)
  | .cls | .ret | .scd _ | .scr | .scl | .exit | .low | .high | .sys _ | .drw _ _ _ => (0, 0)
  | .jp _ | .seImm _ _ | .sneImm _ _ | .seReg _ _ | .sneReg _ _ | .jpI _ => (0, 0)
  | .ldImm _ _ | .addImm _ _ | .ldReg _ _ | .or _ _ | .and _ _ | .xor _ _ => (0, 0)
  | .addReg _ _ | .sub _ _ | .shr _ _ | .subn _ _ | .shl _ _ | .rnd _ _ => (0, 0)
  | .ldI _ | .addIV _ | .ldFV _ | .ldHfV _ | .ldVMem _ | .ldRV _ | .ldVR _ => (0, 0)
  | .skp _ | .sknp _ | .ldVDt _ | .ldVK _ | .ldDtV _ | .ldStV _ => (0, 0)

/-- The general registers an instruction may write in its step (R24). The register of a key wait is written later, by
the key press. -/
def writesReg (r : Nibble) : Instr → Bool
  | .ldImm x _ | .addImm x _ | .ldReg x _ | .or x _ | .and x _ | .xor x _ | .rnd x _ | .ldVDt x => r == x
  | .addReg x _ | .sub x _ | .subn x _ => r == x || r == vf
  | .shr _ y | .shl _ y => r == y || r == vf
  | .ldVMem x | .ldVR x => decide (r.toNat ≤ x.toNat)
  | .drw _ _ _ => r == vf
  | .cls | .ret | .scd _ | .scr | .scl | .exit | .low | .high | .sys _ => false
  | .jp _ | .call _ | .seImm _ _ | .sneImm _ _ | .seReg _ _ | .sneReg _ _ | .jpI _ => false
  | .ldI _ | .addIV _ | .ldFV _ | .ldHfV _ | .ldBV _ | .ldMemV _ | .ldRV _ => false
  | .skp _ | .sknp _ | .ldVK _ | .ldDtV _ | .ldStV _ => false

/-- The bytes DRW reads at `I` (R62, R251). -/
def drwLength (m : Mode) (n : Nibble) : Nat := if m = .extended ∧ n = 0 then 32 else n.toNat

/-- The error of a block of `n` bytes at `a` that does not lie in memory (R58). -/
def blockError (a n : Nat) : Option Fault := if n = 0 ∨ InMemory a n then none else some (.addressError a n)

/-- The error an instruction raises in its execute phase: the table of R271. -/
def raisedError (s : State) : Instr → Option Fault
  | .call _ => if s.params.stackEnd < s.sp.toNat + 2 then some (.addressError s.sp.toNat 2) else none
  | .ret => if s.sp.toNat < Config.stackBase + 2 then some (.addressError (s.sp.toNat - 2) 2) else none
  | .drw _ _ n => blockError s.i.toNat (drwLength s.mode n)
  | .ldBV _ => blockError s.i.toNat 3
  | .ldMemV x | .ldVMem x => blockError s.i.toNat (x.toNat + 1)
  | .cls | .scd _ | .scr | .scl | .exit | .low | .high | .sys _ => none
  | .jp _ | .seImm _ _ | .sneImm _ _ | .seReg _ _ | .sneReg _ _ | .jpI _ => none
  | .ldImm _ _ | .addImm _ _ | .ldReg _ _ | .or _ _ | .and _ _ | .xor _ _ => none
  | .addReg _ _ | .sub _ _ | .shr _ _ | .subn _ _ | .shl _ _ | .rnd _ _ => none
  | .ldI _ | .addIV _ | .ldFV _ | .ldHfV _ | .ldRV _ | .ldVR _ => none
  | .skp _ | .sknp _ | .ldVDt _ | .ldVK _ | .ldDtV _ | .ldStV _ => none

/-! ## Pictures (R240 to R244) -/

/-- The pixel is one of the mode's grid. -/
abbrev OnScreen (m : Mode) (x y : Nat) : Prop := x < m.width ∧ y < m.height

/-- Row `r` of the 8-wide sprite at `a` (R241). -/
def memRow8 (m : Memory) (a r : Nat) : Nat := (m.read (a + r)).toNat

/-- Row `r` of the 16-wide sprite at `a` (R242). -/
def memRow16 (m : Memory) (a r : Nat) : Nat := (m.read (a + 2 * r)).toNat * 256 + (m.read (a + 2 * r + 1)).toNat

/-- Bit `c` of row `r`, column 0 leftmost (R241 to R243). -/
def rowBit (row : Nat → Nat) (cols r c : Nat) : Bool := (row r).testBit (cols - 1 - c)

/-- From `s` to `t` a sprite of `rows` rows and `cols` columns is drawn with its origin at `(px, py)`: the pixel each
offset lands on is XORed with that offset's bit, every other pixel keeps its value, the grid keeps its size, and VF
says whether a lit pixel met a 1 bit (R240, R243, R244). -/
def DrawnSprite (px py rows cols : Nat) (row : Nat → Nat) (s t : State) : Prop :=
  (∀ r c, r < rows → c < cols →
    t.fb.pixel ((px + c) % s.mode.width) ((py + r) % s.mode.height) =
      (s.fb.pixel ((px + c) % s.mode.width) ((py + r) % s.mode.height) ^^ rowBit row cols r c)) ∧
  (∀ x y, OnScreen s.mode x y →
    (∀ r c, r < rows → c < cols → ¬ ((px + c) % s.mode.width = x ∧ (py + r) % s.mode.height = y)) →
    t.fb.pixel x y = s.fb.pixel x y) ∧
  t.FbSized ∧
  t.getV vf ∈ [0, 1] ∧
  (t.getV vf = 1 ↔ ∃ r c, r < rows ∧ c < cols ∧
    s.fb.pixel ((px + c) % s.mode.width) ((py + r) % s.mode.height) = true ∧ rowBit row cols r c = true)

end Sys2Proof.Machine
end

