-- ==== Sys2Proof/Certificates/Slice0/Obligations.lean ====
section
/-! DEFINITION. The statements for the provers, each the Lean form of what its docstring cites. A `D<n>` is one of the
spec's own decisions; a statement that rests on one, or on a log entry, is derived. -/

section Statements

open Sys2Proof Sys2Proof.Machine

/-! ## Encoding -/

/-- Words written out from the opcode map decode to the instructions they stand for, and `FFFF` to an unknown opcode;
`0FFF` is HIGH and `5AB3` is SE because the ignored bits are ignored (R96; D1, D2). -/
def Obligations.WrittenWordsDecode : Prop :=
  decodeWord 0x00EE = .ok .ret ∧ decodeWord 0x00C7 = .ok (.scd 0x7) ∧ decodeWord 0x0FFF = .ok .high ∧
  decodeWord 0x0123 = .ok (.sys 0x123) ∧ decodeWord 0x2ABC = .ok (.call 0xABC) ∧
  decodeWord 0x5AB3 = .ok (.seReg 0xA 0xB) ∧ decodeWord 0x71FF = .ok (.addImm 0x1 0xFF) ∧
  decodeWord 0x812E = .ok (.shl 0x1 0x2) ∧ decodeWord 0xD015 = .ok (.drw 0x0 0x1 0x5) ∧
  decodeWord 0xE1A1 = .ok (.sknp 0x1) ∧ decodeWord 0xF233 = .ok (.ldBV 0x2) ∧
  decodeWord 0xFFFF = .error (.unknownOpcode 0xFFFF)

/-- Decoding an encoded well-formed instruction gives it back, as a word and as the bytes the hardware stores, whatever
bytes follow (R59, R96, R97). -/
def Obligations.DecodeOfEncodeIsTheInstruction : Prop :=
  ∀ i : Instr, i.wellFormed = true →
    decodeWord (encode i) = .ok i ∧
    ∀ rest, decode ([(encode i).extractLsb' 8 8, (encode i).extractLsb' 0 8] ++ rest) = .ok (i, rest)

/-- What a word decodes to is well formed, and encoding it gives that word back but for the bits its row ignores, which
the encoder writes 0 (R81, R92, R96; D1, D2). That zero is the model's choice and no rule of the spec (log 11). -/
def Obligations.EncodeOfDecodeIsTheWord : Prop :=
  ∀ (w : Word) (i : Instr), decodeWord w = .ok i →
    i.wellFormed = true ∧ encode i = w &&& ~~~ ignoredBits i

/-- The second-level dispatch of the 0x8, 0xE and 0xF families: what each code selects, and that exactly the other codes
of these families raise `UnknownOpcode(w)`, with the full word (R85, R86, R87). -/
def Obligations.SecondLevelDispatch : Prop :=
  (∀ x y : Nibble,
    decodeWord (packXyn 0x8 x y 0x0) = .ok (.ldReg x y) ∧ decodeWord (packXyn 0x8 x y 0x1) = .ok (.or x y) ∧
    decodeWord (packXyn 0x8 x y 0x2) = .ok (.and x y) ∧ decodeWord (packXyn 0x8 x y 0x3) = .ok (.xor x y) ∧
    decodeWord (packXyn 0x8 x y 0x4) = .ok (.addReg x y) ∧ decodeWord (packXyn 0x8 x y 0x5) = .ok (.sub x y) ∧
    decodeWord (packXyn 0x8 x y 0x6) = .ok (.shr x y) ∧ decodeWord (packXyn 0x8 x y 0x7) = .ok (.subn x y) ∧
    decodeWord (packXyn 0x8 x y 0xE) = .ok (.shl x y)) ∧
  (∀ x : Nibble,
    decodeWord (packXnn 0xE x 0x9E) = .ok (.skp x) ∧ decodeWord (packXnn 0xE x 0xA1) = .ok (.sknp x)) ∧
  (∀ x : Nibble,
    decodeWord (packXnn 0xF x 0x07) = .ok (.ldVDt x) ∧ decodeWord (packXnn 0xF x 0x0A) = .ok (.ldVK x) ∧
    decodeWord (packXnn 0xF x 0x15) = .ok (.ldDtV x) ∧ decodeWord (packXnn 0xF x 0x18) = .ok (.ldStV x) ∧
    decodeWord (packXnn 0xF x 0x1E) = .ok (.addIV x) ∧ decodeWord (packXnn 0xF x 0x29) = .ok (.ldFV x) ∧
    decodeWord (packXnn 0xF x 0x30) = .ok (.ldHfV x) ∧ decodeWord (packXnn 0xF x 0x33) = .ok (.ldBV x) ∧
    decodeWord (packXnn 0xF x 0x55) = .ok (.ldMemV x) ∧ decodeWord (packXnn 0xF x 0x65) = .ok (.ldVMem x) ∧
    decodeWord (packXnn 0xF x 0x75) = .ok (.ldRV x) ∧ decodeWord (packXnn 0xF x 0x85) = .ok (.ldVR x)) ∧
  (∀ w : Word,
    (opOf w = 0x8 ∧ nOf w ∈ [0x8, 0x9, 0xA, 0xB, 0xC, 0xD, 0xF]) ∨
    (opOf w = 0xE ∧ nnOf w ∉ [0x9E, 0xA1]) ∨
    (opOf w = 0xF ∧ nnOf w ∉ [0x07, 0x0A, 0x15, 0x18, 0x1E, 0x29, 0x30, 0x33, 0x55, 0x65, 0x75, 0x85]) ↔
    decodeWord w = .error (.unknownOpcode w))

/-- The families without a second level: every value of the other 12 bits selects the same instruction (R89). -/
def Obligations.SingleLevelFamilies : Prop :=
  (∀ nnn : Addr,
    decodeWord (packNnn 0x1 nnn) = .ok (.jp nnn) ∧ decodeWord (packNnn 0x2 nnn) = .ok (.call nnn) ∧
    decodeWord (packNnn 0xA nnn) = .ok (.ldI nnn) ∧ decodeWord (packNnn 0xB nnn) = .ok (.jpI nnn)) ∧
  (∀ (x : Nibble) (nn : Byte),
    decodeWord (packXnn 0x3 x nn) = .ok (.seImm x nn) ∧ decodeWord (packXnn 0x4 x nn) = .ok (.sneImm x nn) ∧
    decodeWord (packXnn 0x6 x nn) = .ok (.ldImm x nn) ∧ decodeWord (packXnn 0x7 x nn) = .ok (.addImm x nn) ∧
    decodeWord (packXnn 0xC x nn) = .ok (.rnd x nn)) ∧
  (∀ x y n : Nibble, decodeWord (packXyn 0xD x y n) = .ok (.drw x y n))

/-- The 0x0 family dispatches on its low byte with `w[11:8]` ignored, and every other low byte is SYS (R84, D1); the
low nibble of the 0x5 and 0x9 families is ignored (R88, D2). -/
def Obligations.IgnoredBitsDoNotSelect : Prop :=
  (∀ x n : Nibble,
    decodeWord (packXnn 0x0 x 0xE0) = .ok .cls ∧ decodeWord (packXnn 0x0 x 0xEE) = .ok .ret ∧
    decodeWord (packXyn 0x0 x 0xC n) = .ok (.scd n) ∧ decodeWord (packXnn 0x0 x 0xFB) = .ok .scr ∧
    decodeWord (packXnn 0x0 x 0xFC) = .ok .scl ∧ decodeWord (packXnn 0x0 x 0xFD) = .ok .exit ∧
    decodeWord (packXnn 0x0 x 0xFE) = .ok .low ∧ decodeWord (packXnn 0x0 x 0xFF) = .ok .high) ∧
  (∀ nnn : Addr,
    nnn.toNat % 256 ∉ [0xE0, 0xEE, 0xFB, 0xFC, 0xFD, 0xFE, 0xFF] → nnn.toNat / 16 % 16 ≠ 0xC →
    decodeWord (packNnn 0x0 nnn) = .ok (.sys nnn)) ∧
  (∀ x y n : Nibble,
    decodeWord (packXyn 0x5 x y n) = .ok (.seReg x y) ∧ decodeWord (packXyn 0x9 x y n) = .ok (.sneReg x y))

/-! ## Memory -/

/-- A block write inside memory succeeds, reads back and leaves every byte outside it alone; outside memory a block write
or read of one byte or more is the `AddressError` of its whole range; an empty block succeeds everywhere (R54, R57,
R58). That a write keeps the canonical form of memory is the model's own invariant and no rule of the spec (log 3). -/
def Obligations.BlockWriteReadsBack : Prop :=
  ∀ (m : Memory) (a : Nat) (bs : List Byte),
    (∀ n, InMemory a n →
      ∃ l, m.readBlock a n = .ok l ∧ l.length = n ∧ ∀ k, k < n → l.getD k 0 = m.read (a + k)) ∧
    (InMemory a bs.length →
      ∃ m', m.writeBlock a bs = .ok m' ∧ m'.readBlock a bs.length = .ok bs ∧
        (∀ b, (b < a ∨ a + bs.length ≤ b) → m'.read b = m.read b) ∧ (m.wf = true → m'.wf = true)) ∧
    (bs ≠ [] → ¬ InMemory a bs.length →
      m.writeBlock a bs = .error (.addressError a bs.length) ∧
      m.readBlock a bs.length = .error (.addressError a bs.length)) ∧
    (m.writeBlock a [] = .ok m ∧ m.readBlock a 0 = .ok [])

/-- A word read is big-endian, and faults when its second byte is outside memory (R53); a word write is the same order
(R56, whose byte order the spec derives). -/
def Obligations.WordsAreBigEndian : Prop :=
  ∀ (m : Memory) (a v : Nat),
    (a + 1 < 4096 →
      (∃ w, m.read16 a = .ok w ∧ w.toNat = (m.read a).toNat * 256 + (m.read (a + 1)).toNat) ∧
      ∃ m', m.write16 a v = .ok m' ∧ m'.read16 a = .ok (BitVec.ofNat 16 v) ∧
        (m'.read a).toNat = v / 256 % 256 ∧ (m'.read (a + 1)).toNat = v % 256) ∧
    (4096 ≤ a + 1 →
      m.read16 a = .error (.addressError a 2) ∧ m.write16 a v = .error (.addressError a 2))

/-! ## Reset and invariants -/

/-- The tuple of R20 right after reset. The values of memory, `pc` and `sp` are the source's; the others are the spec's
decision D9. -/
def Obligations.ResetValues : Prop :=
  (∀ a, State.reset.mem.read a = 0x00) ∧ (∀ x, State.reset.getV x = 0x00) ∧ (∀ x, State.reset.getRpl x = 0x00) ∧
  State.reset.i = 0x000 ∧ State.reset.pc = 0x200 ∧ State.reset.sp = 0x0052 ∧
  State.reset.dt = 0x00 ∧ State.reset.st = 0x00 ∧
  State.reset.mode = .normal ∧ State.reset.FbSized ∧ (∀ x y, State.reset.fb.pixel x y = false) ∧
  State.reset.running = true ∧ State.reset.await = none ∧ State.reset.fault = none

/-- The invariant holds at reset (R43, with the canonical form of memory, log 3). -/
def Obligations.ResetMeetsInvariant : Prop := State.reset.Inv

/-- Every step of the machine, whatever transaction it performs, keeps the invariant of R43. -/
def Obligations.StepKeepsInvariant : Prop :=
  ∀ s t : State, s.Inv → step s = .next t → t.Inv

/-- A step answers a next state with STACK_END and FONT_HI_BASE as they were (R10, R21), except the one transaction the
spec gives no meaning: a `load` after the first step (R112, D27, U11). No error stops the machine (log 6). -/
def Obligations.OnlyLateLoadIsRefused : Prop :=
  ∀ s : State,
    (∃ t, step s = .next t ∧ t.params = s.params) ∨
    (step s = .refused .loadAfterFirstStep ∧ s.started = true ∧ ∃ a bs ts, s.pending = .load a bs :: ts)

/-! ## The step -/

/-- A fetched step of a running core, whether the host issued it with its keys and random byte or it runs with free ones,
fetches the big-endian word at `pc`, advances `pc` by 2 mod 4096, decodes, runs exactly the decoded instruction's meaning
on the advanced state with the step's keys and byte in it, and answers the consumed word. At `pc = 0xFFF`, and only
there, the fetch itself raises; a step that raises ends in the state before it with the error (R113, R118, R119, R121,
R122; D3). -/
def Obligations.StepRunsTheDecodedInstruction : Prop :=
  (∀ (s : State) (i : Instr) (k : Option Word) (b : Option Byte) (ts : List Transaction),
    s.Running → s.NextIsStep none k b ts → s.pc ≠ 0xFFF →
    decode [s.mem.read s.pc.toNat, s.mem.read (s.pc.toNat + 1)] = .ok (i, []) →
    ∃ s1 t, s1.toArch = { s.toArch with pc := BitVec.ofNat 12 (s.pc.toNat + 2) } ∧
      s1.keysIn = k ∧ s1.randIn = b ∧ s1.params = s.params ∧ s1.pending = ts ∧
      s1 = (({ s with pending := ts } : State).sample k b).advance ∧
      exec i s1 = .next t ∧
      (t.fault = none →
        step s = .next (t.respond (.stepped t.doneStatus
          (some (wordOfBytes (s.mem.read s.pc.toNat) (s.mem.read (s.pc.toNat + 1))))))) ∧
      (∀ e, t.fault = some e → step s = .next ((({ s with pending := ts } : State).sample k b).fail e))) ∧
  (∀ (s : State) (k : Option Word) (b : Option Byte) (ts : List Transaction),
    s.Running → s.NextIsStep none k b ts → s.pc = 0xFFF →
    step s = .next ((({ s with pending := ts } : State).sample k b).fail (.addressError 0xFFF 2))) ∧
  (∀ s : State, (s.pc = 0xFFF ↔ ∃ e, s.fetch = .error e))

/-- A fetched step, issued or free, whose instruction raises, or whose word is an unknown opcode, leaves the whole tuple
of R20 as it was before the step, `pc` included, with the error latched, and answers `Faulted(e)` with no word (R113,
R123, R125, R278; D3, D26). -/
def Obligations.FailedStepIsRolledBack : Prop :=
  ∀ (s : State) (w : Word) (k : Option Word) (b : Option Byte) (ts : List Transaction),
    s.Running → s.NextIsStep none k b ts → s.fetch = .ok w →
    (∀ i e, decodeWord w = .ok i → s.SpInRegion →
      raisedError ((({ s with pending := ts } : State).sample k b).advance) i = some e →
      ∃ t, step s = .next t ∧ t.toArch = { s.toArch with fault := some e } ∧
        t.response = .stepped (.faulted e) none ∧ t.pending = ts) ∧
    (∀ r, decodeWord w = .error r →
      ∃ t, step s = .next t ∧ t.toArch = { s.toArch with fault := some (.unknownOpcode w) } ∧
        t.response = .stepped (.faulted (.unknownOpcode w)) none ∧ t.pending = ts)

/-- In each stop state a `step` transaction, issued or free, changes nothing of the tuple of R20 and answers that state's
status, the latched error before the halt before the key wait (R118, R125, R127, R128; D10, D11, D31). -/
def Obligations.StoppedStepsChangeNothing : Prop :=
  ∀ (s : State) (o k : Option Word) (b : Option Byte) (ts : List Transaction),
    s.NextIsStep o k b ts →
    (∀ e, s.fault = some e →
      ∃ t, step s = .next t ∧ t.toArch = s.toArch ∧ t.response = .stepped (.faulted e) none ∧ t.pending = ts) ∧
    (s.fault = none → s.running = false →
      ∃ t, step s = .next t ∧ t.toArch = s.toArch ∧ t.response = .stepped .halted none ∧ t.pending = ts) ∧
    (∀ x, s.fault = none → s.running = true → s.await = some x →
      ∃ t, step s = .next t ∧ t.toArch = s.toArch ∧ t.response = .stepped .awaitingKey none ∧ t.pending = ts)

/-- An injected word is executed instead of a fetched one, reads no memory for it, sees `pc` at its value before the
step and the step's keys and random byte, and is the word answered. Where it raises or is an unknown opcode, the step
leaves the tuple of R20 as it was with the error latched, and answers `Faulted(e)` with no word (R118, R120, R123, R124;
D3, D26). -/
def Obligations.InjectedWordRunsUnadvanced : Prop :=
  ∀ (s : State) (w : Word) (k : Option Word) (b : Option Byte) (ts : List Transaction),
    s.Running → s.pending = .step (some w) k b :: ts →
    (∀ i, decodeWord w = .ok i →
      ∃ s1 t, s1.toArch = s.toArch ∧ s1.keysIn = k ∧ s1.randIn = b ∧ s1.params = s.params ∧ s1.pending = ts ∧
        exec i s1 = .next t ∧
        (t.fault = none → step s = .next (t.respond (.stepped t.doneStatus (some w)))) ∧
        (∀ e, t.fault = some e →
          ∃ u, step s = .next u ∧ u.toArch = { s.toArch with fault := some e } ∧
            u.response = .stepped (.faulted e) none ∧ u.pending = ts)) ∧
    (∀ r, decodeWord w = .error r →
      ∃ u, step s = .next u ∧ u.toArch = { s.toArch with fault := some (.unknownOpcode w) } ∧
        u.response = .stepped (.faulted (.unknownOpcode w)) none ∧ u.pending = ts)

/-- Code and data share memory: after a fetched `Fx55`, issued or free, stores `V[0]`, `V[1]` over the word that follows
it, the next fetch reads that word from the bytes stored (R71, R305; D23). -/
def Obligations.StoredBytesAreFetchedNext : Prop :=
  ∀ (s : State) (x : Nibble) (k : Option Word) (b : Option Byte) (ts : List Transaction),
    s.Running → s.NextIsStep none k b ts → 1 ≤ x.toNat → s.pc.toNat + 2 + x.toNat < 4096 →
    s.i.toNat = s.pc.toNat + 2 → s.fetch = .ok (encode (.ldMemV x)) →
    ∃ t, step s = .next t ∧ t.fault = none ∧ t.pending = ts ∧
      t.fetch = .ok (wordOfBytes (s.getV 0) (s.getV 1))

/-! ## The host's other transactions -/

/-- `reset` gives every component of R20 its reset value whatever the state was, a latched error, a halt and a key wait
included (R111, R300; the values of D9). -/
def Obligations.ResetTransactionRestoresAll : Prop :=
  ∀ (s : State) (ts : List Transaction), s.pending = .reset :: ts →
    ∃ t, step s = .next t ∧ t.toArch = State.reset.toArch ∧ t.started = false ∧ t.params = s.params ∧ t.pending = ts

/-- `tick` decrements both counters by 1 if each is nonzero, writes no other state and raises nothing, in every state
(R227). -/
def Obligations.TickCountsBothTimersDown : Prop :=
  ∀ (s : State) (ts : List Transaction), s.pending = .tick :: ts →
    ∃ t, step s = .next t ∧
      t.dt.toNat = s.dt.toNat - 1 ∧ t.st.toNat = s.st.toNat - 1 ∧
      (∀ c, c ∉ [Component.dt, Component.st] → c.Same s t) ∧ t.params = s.params ∧ t.pending = ts

/-- `keyPress(k)` ends a key wait by writing `V[x] <- k`; in every other state it changes nothing (R115; D11). -/
def Obligations.KeyPressEndsOnlyAWait : Prop :=
  ∀ (s : State) (k : Nibble) (ts : List Transaction), s.pending = .keyPress k :: ts →
    (∀ x, s.fault = none → s.running = true → s.await = some x →
      ∃ t, step s = .next t ∧ (t.getV x).toNat = k.toNat ∧ t.await = none ∧ KeepsRegsBut [x] s t ∧
        (∀ c, c ∉ [Component.v, Component.await] → c.Same s t) ∧ t.pending = ts) ∧
    (s.fault ≠ none ∨ s.running = false ∨ s.await = none →
      ∃ t, step s = .next t ∧ t.toArch = s.toArch ∧ t.pending = ts)

/-- `setReg` of a `V`, an `RPL`, `I` or `pc`, then `getReg` of the same, answers the value masked to the register's
width, and nothing else of the tuple of R20 is changed (R44, R116; D22, D33, which leave `sp` to another rule). -/
def Obligations.SetThenGetIsMasked : Prop :=
  ∀ (s : State) (r : RegName) (v : Nat) (ts : List Transaction),
    s.pending = .setReg r v :: .getReg r :: ts → r ≠ .sp →
    ∃ t u, step s = .next t ∧ step t = .next u ∧ u.toArch = t.toArch ∧ u.pending = ts ∧
      (∀ x, r = .v x → u.response = .regValue (v % 256) ∧ KeepsRegsBut [x] s t ∧
        ∀ c, c ≠ Component.v → c.Same s t) ∧
      (∀ x, r = .rpl x → u.response = .regValue (v % 256) ∧ (∀ y, y ≠ x → t.getRpl y = s.getRpl y) ∧
        ∀ c, c ≠ Component.rpl → c.Same s t) ∧
      (r = .i → u.response = .regValue (v % 4096) ∧ ∀ c, c ≠ Component.i → c.Same s t) ∧
      (r = .pc → u.response = .regValue (v % 4096) ∧ ∀ c, c ≠ Component.pc → c.Same s t)

/-- `setReg(sp, v)` stores `v` exactly when it lies in the stack region at an even offset, and is otherwise refused with
nothing stored (R116; D33, log 7). -/
def Obligations.SetStackPointerIsGuarded : Prop :=
  ∀ (s : State) (v : Nat) (ts : List Transaction), s.pending = .setReg .sp v :: ts →
    (0x052 ≤ v ∧ v ≤ s.params.stackEnd ∧ v % 2 = 0 →
      ∃ t, step s = .next t ∧ t.sp.toNat = v ∧ (∀ c, c ≠ Component.sp → c.Same s t) ∧ t.pending = ts) ∧
    (v < 0x052 ∨ s.params.stackEnd < v ∨ v % 2 = 1 →
      ∃ t, step s = .next t ∧ t.toArch = s.toArch ∧ t.response = .setRefused ∧ t.pending = ts)

/-- Before the first step `load(a, bs)` writes the block, or out of range writes nothing, answers the error and latches
none; after the first step it is refused (R112; D27). -/
def Obligations.LoadOnlyBeforeTheFirstStep : Prop :=
  ∀ (s : State) (a : Nat) (bs : List Byte) (ts : List Transaction), s.pending = .load a bs :: ts →
    (s.started = false → InMemory a bs.length →
      ∃ t, step s = .next t ∧ t.response = .loaded none ∧ t.started = false ∧ t.pending = ts ∧
        (∀ k, k < bs.length → t.mem.read (a + k) = bs.getD k 0) ∧
        KeepsBytesOutside a bs.length s t ∧ (∀ c, c ≠ Component.mem → c.Same s t)) ∧
    (s.started = false → bs ≠ [] → ¬ InMemory a bs.length →
      ∃ t, step s = .next t ∧ t.response = .loaded (some (.addressError a bs.length)) ∧ t.toArch = s.toArch ∧
        t.pending = ts) ∧
    (s.started = true → step s = .refused .loadAfterFirstStep)

/-- What the host observes: the framebuffer with the size of the mode, `sound_active` exactly when `ST > 0`, and the
registers; observing changes nothing (R34, R36, R116). -/
def Obligations.ObservationIsFaithful : Prop :=
  ∀ (s : State) (ts : List Transaction), s.pending = .observe :: ts →
    ∃ t o, step s = .next t ∧ t.toArch = s.toArch ∧ t.pending = ts ∧ t.response = .observed o ∧
      o.fb = s.fb ∧ o.mode = s.mode ∧
      (s.mode = .normal → o.width = 64 ∧ o.height = 32) ∧ (s.mode = .extended → o.width = 128 ∧ o.height = 64) ∧
      (o.soundActive = true ↔ s.st ≠ 0) ∧ o.running = s.running ∧ o.fault = s.fault ∧
      o.v = s.v ∧ o.rpl = s.rpl ∧ o.i = s.i ∧ o.pc = s.pc ∧ o.sp = s.sp ∧ o.dt = s.dt ∧ o.st = s.st

/-! ## Control flow -/

/-- RET pops the frame low byte first, cuts the address to 12 bits, and leaves the frame bytes in memory (R141, R31). The
hypotheses are the stack not empty and R43's bound of `sp`. -/
def Obligations.ReturnPopsTheFrame : Prop :=
  ∀ s : State, s.SpInRegion → 0x054 ≤ s.sp.toNat →
    ∃ t, exec .ret s = .next t ∧
      t.pc.toNat = ((s.mem.read (s.sp.toNat - 1)).toNat * 256 + (s.mem.read (s.sp.toNat - 2)).toNat) % 4096 ∧
      t.sp.toNat = s.sp.toNat - 2 ∧ ChangesOnly [.pc, .sp] s t

/-- CALL with room for a frame stores the current `pc` low byte first at `sp`, `sp+1`, moves `sp` up by 2 and jumps
(R145, R60; D6). -/
def Obligations.CallPushesTheReturnAddress : Prop :=
  ∀ (nnn : Addr) (s : State), s.sp.toNat + 2 ≤ s.params.stackEnd →
    ∃ t, exec (.call nnn) s = .next t ∧
      (t.mem.read s.pushAddr).toNat = s.pc.toNat % 256 ∧
      (t.mem.read (s.pushAddr + 1)).toNat = s.pc.toNat / 256 ∧
      s.pushAddr = s.sp.toNat ∧ KeepsBytesOutside s.pushAddr 2 s t ∧
      t.sp.toNat = s.sp.toNat + 2 ∧ t.pc = nnn ∧ ChangesOnly [.mem, .sp, .pc] s t

/-- CALL, then RET, resumes at the instruction after the CALL with `sp` where it was, on every program counter
(R151). -/
def Obligations.CallThenReturnResumes : Prop :=
  ∀ (nnn : Addr) (s : State), 0x052 ≤ s.sp.toNat → s.sp.toNat + 2 ≤ s.params.stackEnd →
    ∃ t u, exec (.call nnn) s = .next t ∧ exec .ret t = .next u ∧ u.pc = s.pc ∧ u.sp = s.sp ∧
      ChangesOnly [.mem] s u

/-- EXIT, `0?FD`, clears `running` and nothing else; from then on a step, issued or free, answers `Halted` and changes nothing of the
tuple of R20, while a tick still counts `DT` down (R142, R127; D1, D10). -/
def Obligations.ExitHaltsTheCore : Prop :=
  (∀ x : Nibble, decodeWord (packXnn 0x0 x 0xFD) = .ok .exit) ∧
  (∀ s : State, ∃ t, exec .exit s = .next t ∧ t.running = false ∧ ChangesOnly [.running] s t) ∧
  (∀ (s : State) (o k : Option Word) (b : Option Byte) (ts : List Transaction),
    s.NextIsStep o k b ts → s.fault = none → s.running = false →
    ∃ t, step s = .next t ∧ t.toArch = s.toArch ∧ t.response = .stepped .halted none ∧ t.pending = ts) ∧
  (∀ (s : State) (ts : List Transaction), s.pending = .tick :: ts → s.running = false →
    ∃ t, step s = .next t ∧ t.dt.toNat = s.dt.toNat - 1 ∧ t.running = false)

/-- SYS is a no-op, not an error, for every 0x0 word whose low byte no other row takes (R143, R84; D1). -/
def Obligations.SysDoesNothing : Prop :=
  ∀ (nnn : Addr) (s : State),
    exec (.sys nnn) s = .next s ∧
    ((Instr.sys nnn).wellFormed = true → decodeWord (packNnn 0x0 nnn) = .ok (.sys nnn))

/-- JP jumps and LD I loads, to any 12-bit value, odd ones too (R144, R190). -/
def Obligations.TwelveBitTargetsAreTaken : Prop :=
  ∀ (nnn : Addr) (s : State),
    decodeWord (packNnn 0x1 nnn) = .ok (.jp nnn) ∧ decodeWord (packNnn 0xA nnn) = .ok (.ldI nnn) ∧
    (∃ t, exec (.jp nnn) s = .next t ∧ t.pc = nnn ∧ ChangesOnly [.pc] s t) ∧
    (∃ t, exec (.ldI nnn) s = .next t ∧ t.i = nnn ∧ ChangesOnly [.i] s t)

/-- JP I jumps to `I + nnn`, not relative to `V[0]`, and ADD I adds `V[x]`, both mod 4096 and with no flag (R150, R191,
whose masks the spec derives). -/
def Obligations.IndexSumsWrap : Prop :=
  ∀ (nnn : Addr) (x : Nibble) (s : State),
    (∃ t, exec (.jpI nnn) s = .next t ∧ t.pc.toNat = (s.i.toNat + nnn.toNat) % 4096 ∧ ChangesOnly [.pc] s t) ∧
    (∃ t, exec (.addIV x) s = .next t ∧ t.i.toNat = (s.i.toNat + (s.getV x).toNat) % 4096 ∧ ChangesOnly [.i] s t)

/-- SE and SNE with an immediate move `pc` two further, mod 4096, exactly when their condition holds, VF a register like
any (R146, R147). -/
def Obligations.SkipsOnImmediate : Prop :=
  ∀ (x : Nibble) (nn : Byte) (s : State),
    decodeWord (packXnn 0x3 x nn) = .ok (.seImm x nn) ∧ decodeWord (packXnn 0x4 x nn) = .ok (.sneImm x nn) ∧
    (∃ t, exec (.seImm x nn) s = .next t ∧ ChangesOnly [.pc] s t ∧
      t.pc.toNat = if s.getV x = nn then (s.pc.toNat + 2) % 4096 else s.pc.toNat) ∧
    (∃ t, exec (.sneImm x nn) s = .next t ∧ ChangesOnly [.pc] s t ∧
      t.pc.toNat = if s.getV x ≠ nn then (s.pc.toNat + 2) % 4096 else s.pc.toNat)

/-- SE and SNE of two registers move `pc` two further, mod 4096, exactly when their condition holds, so that `x = y`
always skips in SE and never in SNE (R148, R149; D2). -/
def Obligations.SkipsOnRegisters : Prop :=
  ∀ (x y : Nibble) (s : State),
    (∃ t, exec (.seReg x y) s = .next t ∧ ChangesOnly [.pc] s t ∧
      t.pc.toNat = if s.getV x = s.getV y then (s.pc.toNat + 2) % 4096 else s.pc.toNat) ∧
    (∃ t, exec (.sneReg x y) s = .next t ∧ ChangesOnly [.pc] s t ∧
      t.pc.toNat = if s.getV x ≠ s.getV y then (s.pc.toNat + 2) % 4096 else s.pc.toNat)

/-! ## Registers and arithmetic -/

/-- LD Vx, nn and LD Vx, Vy, VF an ordinary destination (R160, R163). -/
def Obligations.LoadsOfImmediateAndRegister : Prop :=
  ∀ (x y : Nibble) (nn : Byte) (s : State),
    decodeWord (packXnn 0x6 x nn) = .ok (.ldImm x nn) ∧ decodeWord (packXyn 0x8 x y 0x0) = .ok (.ldReg x y) ∧
    (∃ t, exec (.ldImm x nn) s = .next t ∧ t.getV x = nn ∧ KeepsRegsBut [x] s t ∧ ChangesOnly [.v] s t) ∧
    (∃ t, exec (.ldReg x y) s = .next t ∧ t.getV x = s.getV y ∧ KeepsRegsBut [x] s t ∧ ChangesOnly [.v] s t)

/-- ADD Vx, nn wraps silently and writes no flag (R161). -/
def Obligations.AddImmediateWraps : Prop :=
  ∀ (x : Nibble) (nn : Byte) (s : State),
    decodeWord (packXnn 0x7 x nn) = .ok (.addImm x nn) ∧
    ∃ t, exec (.addImm x nn) s = .next t ∧ (t.getV x).toNat = ((s.getV x).toNat + nn.toNat) % 256 ∧
      KeepsRegsBut [x] s t ∧ ChangesOnly [.v] s t

/-- OR, AND and XOR of every bit, VF not written unless it is the destination (R164, R165, R166). -/
def Obligations.BitwiseOperations : Prop :=
  ∀ (x y : Nibble) (s : State),
    decodeWord (packXyn 0x8 x y 0x1) = .ok (.or x y) ∧ decodeWord (packXyn 0x8 x y 0x2) = .ok (.and x y) ∧
    decodeWord (packXyn 0x8 x y 0x3) = .ok (.xor x y) ∧
    (∃ t, exec (.or x y) s = .next t ∧ KeepsRegsBut [x] s t ∧ ChangesOnly [.v] s t ∧
      ∀ k, (t.getV x).getLsbD k = ((s.getV x).getLsbD k || (s.getV y).getLsbD k)) ∧
    (∃ t, exec (.and x y) s = .next t ∧ KeepsRegsBut [x] s t ∧ ChangesOnly [.v] s t ∧
      ∀ k, (t.getV x).getLsbD k = ((s.getV x).getLsbD k && (s.getV y).getLsbD k)) ∧
    (∃ t, exec (.xor x y) s = .next t ∧ KeepsRegsBut [x] s t ∧ ChangesOnly [.v] s t ∧
      ∀ k, (t.getV x).getLsbD k = ((s.getV x).getLsbD k ^^ (s.getV y).getLsbD k))

/-- ADD Vx, Vy stores the sum mod 256 and then the carry to VF, which wins when `x = 0xF` (R167). -/
def Obligations.AddSetsCarry : Prop :=
  ∀ (x y : Nibble) (s : State),
    decodeWord (packXyn 0x8 x y 0x4) = .ok (.addReg x y) ∧
    ∃ t, exec (.addReg x y) s = .next t ∧
      t.getV vf = (if 255 < (s.getV x).toNat + (s.getV y).toNat then 1 else 0) ∧
      (x ≠ vf → (t.getV x).toNat = ((s.getV x).toNat + (s.getV y).toNat) % 256) ∧
      KeepsRegsBut [x, vf] s t ∧ ChangesOnly [.v] s t

/-- SUB and SUBN store the difference mod 256 and then VF, 1 only when the minuend is strictly greater, so that equal
operands give 0 and VF = 0 (R168, R170). -/
def Obligations.SubtractionsCompareStrictly : Prop :=
  ∀ (x y : Nibble) (s : State),
    decodeWord (packXyn 0x8 x y 0x5) = .ok (.sub x y) ∧ decodeWord (packXyn 0x8 x y 0x7) = .ok (.subn x y) ∧
    (∃ t, exec (.sub x y) s = .next t ∧
      t.getV vf = (if (s.getV y).toNat < (s.getV x).toNat then 1 else 0) ∧
      (x ≠ vf → t.getV x = s.getV x - s.getV y) ∧ KeepsRegsBut [x, vf] s t ∧ ChangesOnly [.v] s t) ∧
    (∃ t, exec (.subn x y) s = .next t ∧
      t.getV vf = (if (s.getV x).toNat < (s.getV y).toNat then 1 else 0) ∧
      (x ≠ vf → t.getV x = s.getV y - s.getV x) ∧ KeepsRegsBut [x, vf] s t ∧ ChangesOnly [.v] s t)

/-- SHR and SHL read `V[x]` and write `V[y]`, then VF, the bit shifted out; `V[x]` is unchanged unless it is one of the
two (R169, R171; the reading of C1). -/
def Obligations.ShiftsReadXAndWriteY : Prop :=
  ∀ (x y : Nibble) (s : State),
    (∃ t, exec (.shr x y) s = .next t ∧ (t.getV vf).toNat = (s.getV x).toNat % 2 ∧
      (y ≠ vf → (t.getV y).toNat = (s.getV x).toNat / 2) ∧ KeepsRegsBut [y, vf] s t ∧ ChangesOnly [.v] s t) ∧
    (∃ t, exec (.shl x y) s = .next t ∧ (t.getV vf).toNat = (s.getV x).toNat / 128 ∧
      (y ≠ vf → (t.getV y).toNat = (s.getV x).toNat * 2 % 256) ∧ KeepsRegsBut [y, vf] s t ∧ ChangesOnly [.v] s t)

/-- RND stores `nn & Rand` for whatever byte the host gives the step, or for the step's free byte where it gives none
(R172; D30, log 2). -/
def Obligations.RandomUnderTheMask : Prop :=
  ∀ (x : Nibble) (nn : Byte) (s : State),
    (∃ t, exec (.rnd x nn) s = .next t ∧ t.getV x = nn &&& s.rand ∧ KeepsRegsBut [x] s t ∧ ChangesOnly [.v] s t) ∧
    (∀ b, s.randIn = some b → s.rand = b) ∧ (s.randIn = none → s.rand = Config.freeRand s.inputIx)

/-! ## Index, memory and RPL -/

/-- LD F and LD HF point `I` at the glyph of the whole byte `V[x]`, five and ten bytes a glyph, the same in both modes
(R192, R193; D13, D14, C12). -/
def Obligations.GlyphAddresses : Prop :=
  ∀ (x : Nibble) (s : State),
    (∃ t, exec (.ldFV x) s = .next t ∧ t.i.toNat = (s.getV x).toNat * 5 ∧ ChangesOnly [.i] s t) ∧
    (∃ t, exec (.ldHfV x) s = .next t ∧
      t.i.toNat = (s.params.fontHiBase.val + (s.getV x).toNat * 10) % 4096 ∧ ChangesOnly [.i] s t)

/-- LD B stores hundreds, tens and units at `I`, `I+1`, `I+2`, or when `I > 0xFFD` raises `AddressError(I, 3)` and writes
nothing (R194). -/
def Obligations.DecimalDigitsAreStored : Prop :=
  ∀ (x : Nibble) (s : State),
    decodeWord (packXnn 0xF x 0x33) = .ok (.ldBV x) ∧
    (s.i.toNat ≤ 0xFFD →
      ∃ t h d u, exec (.ldBV x) s = .next t ∧
        (t.mem.read s.indexAddr).toNat = h ∧ (t.mem.read (s.indexAddr + 1)).toNat = d ∧
        (t.mem.read (s.indexAddr + 2)).toNat = u ∧
        (s.getV x).toNat = h * 100 + d * 10 + u ∧ d ≤ 9 ∧ u ≤ 9 ∧
        s.indexAddr = s.i.toNat ∧ KeepsBytesOutside s.indexAddr 3 s t ∧ ChangesOnly [.mem] s t) ∧
    (0xFFD < s.i.toNat →
      ∃ t, exec (.ldBV x) s = .next t ∧ t.fault = some (.addressError s.i.toNat 3) ∧ ChangesOnly [.fault] s t)

/-- LD [I], Vx stores `V[0]..V[x]` from `I` up and leaves `I` alone (R195; D23). -/
def Obligations.RegistersAreStored : Prop :=
  ∀ (x : Nibble) (s : State), s.i.toNat + x.toNat ≤ 0xFFF →
    ∃ t, exec (.ldMemV x) s = .next t ∧
      (∀ k : Nibble, k.toNat ≤ x.toNat → t.mem.read (s.indexAddr + k.toNat) = s.getV k) ∧
      s.indexAddr = s.i.toNat ∧ KeepsBytesOutside s.indexAddr (x.toNat + 1) s t ∧ ChangesOnly [.mem] s t

/-- LD Vx, [I] loads `V[0]..V[x]` from `I` up, VF an ordinary destination, and leaves `I` alone (R196; D23). -/
def Obligations.RegistersAreLoaded : Prop :=
  ∀ (x : Nibble) (s : State), s.i.toNat + x.toNat ≤ 0xFFF →
    ∃ t, exec (.ldVMem x) s = .next t ∧
      (∀ k : Nibble, t.getV k = if k.toNat ≤ x.toNat then s.mem.read (s.i.toNat + k.toNat) else s.getV k) ∧
      ChangesOnly [.v] s t

/-- LD R, Vx and LD Vx, R copy registers `0..x` to and from the RPL file, the others unchanged, for every `x`
(R197, R198). -/
def Obligations.RplSavesAndRestores : Prop :=
  ∀ (x : Nibble) (s : State),
    decodeWord (packXnn 0xF x 0x75) = .ok (.ldRV x) ∧ decodeWord (packXnn 0xF x 0x85) = .ok (.ldVR x) ∧
    (∃ t, exec (.ldRV x) s = .next t ∧
      (∀ k : Nibble, t.getRpl k = if k.toNat ≤ x.toNat then s.getV k else s.getRpl k) ∧ ChangesOnly [.rpl] s t) ∧
    (∃ t, exec (.ldVR x) s = .next t ∧
      (∀ k : Nibble, t.getV k = if k.toNat ≤ x.toNat then s.getRpl k else s.getV k) ∧ ChangesOnly [.v] s t)

/-! ## Timers and keys -/

/-- LD Vx, DT, LD DT, Vx and LD ST, Vx; `sound_active` follows the new `ST` at once (R223, R225, R226). -/
def Obligations.TimersAreReadAndSet : Prop :=
  ∀ (x : Nibble) (s : State),
    decodeWord (packXnn 0xF x 0x07) = .ok (.ldVDt x) ∧ decodeWord (packXnn 0xF x 0x15) = .ok (.ldDtV x) ∧
    decodeWord (packXnn 0xF x 0x18) = .ok (.ldStV x) ∧
    (∃ t, exec (.ldVDt x) s = .next t ∧ t.getV x = s.dt ∧ KeepsRegsBut [x] s t ∧ ChangesOnly [.v] s t) ∧
    (∃ t, exec (.ldDtV x) s = .next t ∧ t.dt = s.getV x ∧ ChangesOnly [.dt] s t) ∧
    (∃ t, exec (.ldStV x) s = .next t ∧ t.st = s.getV x ∧ (t.soundActive = true ↔ s.getV x ≠ 0) ∧
      ChangesOnly [.st] s t)

/-- SKP skips exactly when key `V[x]` is pressed and SKNP exactly when it is not, a value above 15 never being pressed;
the keys are the host's vector where it gives one (R220, R221, R222; D12, log 2). -/
def Obligations.SkipsOnKeys : Prop :=
  ∀ (x : Nibble) (s : State),
    (∃ t, exec (.skp x) s = .next t ∧ ChangesOnly [.pc] s t ∧
      t.pc.toNat = if (s.getV x).toNat ≤ 15 ∧ s.keys.getLsbD (s.getV x).toNat = true
        then (s.pc.toNat + 2) % 4096 else s.pc.toNat) ∧
    (∃ t, exec (.sknp x) s = .next t ∧ ChangesOnly [.pc] s t ∧
      t.pc.toNat = if (s.getV x).toNat ≤ 15 ∧ s.keys.getLsbD (s.getV x).toNat = true
        then s.pc.toNat else (s.pc.toNat + 2) % 4096) ∧
    (∀ k, s.keysIn = some k → s.keys = k) ∧ (s.keysIn = none → s.keys = Config.freeKeys s.inputIx)

/-- LD Vx, K begins a wait with `pc` already past it; steps then do nothing, and the key press writes `V[x]` and ends it
(R115, R128, R224; D11). -/
def Obligations.KeyWaitFromStartToEnd : Prop :=
  (∀ (x : Nibble) (s : State), ∃ t, exec (.ldVK x) s = .next t ∧ t.await = some x ∧ ChangesOnly [.await] s t) ∧
  (∀ (x k : Nibble) (s : State) (o k1 k2 : Option Word) (b1 b2 : Option Byte) (ts : List Transaction),
    s.Running → s.fetch = .ok (packXnn 0xF x 0x0A) →
    s.pending = .step none k1 b1 :: .step o k2 b2 :: .keyPress k :: ts →
    ∃ t u v, step s = .next t ∧ step t = .next u ∧ step u = .next v ∧
      t.response = .stepped .awaitingKey (some (packXnn 0xF x 0x0A)) ∧ t.await = some x ∧
      t.pc.toNat = (s.pc.toNat + 2) % 4096 ∧
      u.response = .stepped .awaitingKey none ∧ u.toArch = t.toArch ∧
      (v.getV x).toNat = k.toNat ∧ v.await = none ∧ v.pc = t.pc ∧ v.pending = ts)

/-! ## Display -/

/-- CLS, `0?E0`, turns every pixel off and changes neither the mode nor the size nor VF (R245; D1). -/
def Obligations.ClearTurnsEveryPixelOff : Prop :=
  (∀ x : Nibble, decodeWord (packXnn 0x0 x 0xE0) = .ok .cls) ∧
  ∀ s : State, ∃ t, exec .cls s = .next t ∧ t.FbSized ∧ (∀ x y, OnScreen s.mode x y → t.fb.pixel x y = false) ∧
    ChangesOnly [.fb] s t

/-- SCD, SCR and SCL move every pixel by `n` rows down, or by 4 columns right or left, of the current resolution, with
off pixels moved in and no wrap (R246, R247, R248; D19). -/
def Obligations.ScrollsMoveWithoutWrapping : Prop :=
  ∀ (n : Nibble) (s : State),
    (∃ t, exec (.scd n) s = .next t ∧ t.FbSized ∧ ChangesOnly [.fb] s t ∧
      (∀ x y, OnScreen s.mode x (y + n.toNat) → t.fb.pixel x (y + n.toNat) = s.fb.pixel x y) ∧
      (∀ x y, OnScreen s.mode x y → y < n.toNat → t.fb.pixel x y = false)) ∧
    (∃ t, exec .scr s = .next t ∧ t.FbSized ∧ ChangesOnly [.fb] s t ∧
      (∀ x y, OnScreen s.mode (x + 4) y → t.fb.pixel (x + 4) y = s.fb.pixel x y) ∧
      (∀ x y, OnScreen s.mode x y → x < 4 → t.fb.pixel x y = false)) ∧
    (∃ t, exec .scl s = .next t ∧ t.FbSized ∧ ChangesOnly [.fb] s t ∧
      (∀ x y, OnScreen s.mode (x + 4) y → t.fb.pixel x y = s.fb.pixel (x + 4) y) ∧
      (∀ x y, OnScreen s.mode x y → s.mode.width ≤ x + 4 → t.fb.pixel x y = false))

/-- LOW and HIGH select the mode and clear the framebuffer at its size, even when the mode does not change
(R249, R250; D20). -/
def Obligations.ModeSwitchAlwaysClears : Prop :=
  ∀ s : State,
    (∃ t, exec .low s = .next t ∧ t.mode = .normal ∧ t.FbSized ∧ (∀ x y, t.fb.pixel x y = false) ∧
      ChangesOnly [.mode, .fb] s t) ∧
    (∃ t, exec .high s = .next t ∧ t.mode = .extended ∧ t.FbSized ∧ (∀ x y, t.fb.pixel x y = false) ∧
      ChangesOnly [.mode, .fb] s t)

/-- DRW of an 8-wide sprite of `n` rows from memory at `I`: drawn at `(V[x], V[y])`, toroidally, with VF the collision;
with `n = 0` in Normal mode it draws nothing and clears VF (R240, R241, R243, R244, R251; D15, D17, D18, D28). -/
def Obligations.DrawsEightWideSprites : Prop :=
  ∀ (x y n : Nibble) (s : State), s.FbSized → (s.mode = .normal ∨ n ≠ 0) → InMemory s.i.toNat n.toNat →
    ∃ t, exec (.drw x y n) s = .next t ∧
      DrawnSprite (s.getV x).toNat (s.getV y).toNat n.toNat 8 (memRow8 s.mem s.i.toNat) s t ∧
      (n = 0 → t.fb = s.fb ∧ t.getV vf = 0) ∧
      KeepsRegsBut [vf] s t ∧ ChangesOnly [.v, .fb] s t

/-- DRW with `n = 0` in Extended mode draws the 16x16 sprite of the 32 bytes at `I`, two bytes a row, left half first
(R240, R242, R243, R244, R251; D16, D17, D18). -/
def Obligations.DrawsSixteenWideSprites : Prop :=
  ∀ (x y : Nibble) (s : State), s.FbSized → s.mode = .extended → s.i.toNat ≤ 0xFE0 →
    ∃ t, exec (.drw x y 0) s = .next t ∧
      DrawnSprite (s.getV x).toNat (s.getV y).toNat 16 16 (memRow16 s.mem s.i.toNat) s t ∧
      KeepsRegsBut [vf] s t ∧ ChangesOnly [.v, .fb] s t

/-- Drawing the same sprite twice at the same origin restores the framebuffer, and the second draw sets VF exactly when
the first turned at least one pixel on (R252; C11, C17). Where a coordinate register is VF, which the first draw writes,
the origin is the same only if VF was that flag already. -/
def Obligations.DrawingTwiceRestores : Prop :=
  ∀ (x y n : Nibble) (s : State), s.FbSized → InMemory s.i.toNat (drwLength s.mode n) →
    ∃ t, exec (.drw x y n) s = .next t ∧ (x ≠ vf → t.getV x = s.getV x) ∧ (y ≠ vf → t.getV y = s.getV y) ∧
      (t.getV x = s.getV x → t.getV y = s.getV y →
        ∃ u, exec (.drw x y n) t = .next u ∧ u.fb = s.fb ∧
          (u.getV vf = 1 ↔ ∃ px py, OnScreen s.mode px py ∧ s.fb.pixel px py = false ∧ t.fb.pixel px py = true) ∧
          KeepsRegsBut [vf] s u ∧ ChangesOnly [.v] s u)

/-! ## Rules of the whole machine -/

/-- Which instruction raises which error on which operands, with the record: the table of R271. With an error nothing
but `fault` changes; without one the instruction raises none (R271, R273, R275; D5, D6, D7). -/
def Obligations.ErrorsAreThoseOfTheTable : Prop :=
  ∀ (i : Instr) (s : State), s.SpInRegion →
    (∀ e, raisedError s i = some e →
      ∃ t, exec i s = .next t ∧ t.fault = some e ∧ ChangesOnly [.fault] s t) ∧
    (raisedError s i = none → ∃ t, exec i s = .next t ∧ t.fault = s.fault)

/-- Memory is written by CALL, LD B and LD [I] alone, and only at the bytes they store (R62, R64). -/
def Obligations.OnlyStoresWriteMemory : Prop :=
  ∀ (i : Instr) (s t : State), exec i s = .next t →
    KeepsBytesOutside (storesTo s i).1 (storesTo s i).2 s t

/-- Each general register is written only by the instructions R24 lists for it. -/
def Obligations.OnlyListedWritersWriteRegisters : Prop :=
  ∀ (i : Instr) (s t : State) (r : Nibble), exec i s = .next t → writesReg r i = false → t.getV r = s.getV r

/-- Every component but memory, `V` and `pc` changes only in the instructions its rule names: `I` (R25), `sp` (R30), RPL
(R32), `DT` (R33), `ST` (R34), `mode` (R35), the picture (R129, R245 to R251), `running` (R38), `await` (R39), and
`fault` only in those the table of errors gives an execute-phase error (R40, R271). -/
def Obligations.SpecialStateHasItsWriters : Prop :=
  ∀ (i : Instr) (s t : State), exec i s = .next t →
    (t.i ≠ s.i → (∃ nnn, i = .ldI nnn) ∨ ∃ x, i = .addIV x ∨ i = .ldFV x ∨ i = .ldHfV x) ∧
    (t.sp ≠ s.sp → i = .ret ∨ ∃ nnn, i = .call nnn) ∧
    ((∃ x, t.getRpl x ≠ s.getRpl x) → ∃ x, i = .ldRV x) ∧
    (t.dt ≠ s.dt → ∃ x, i = .ldDtV x) ∧
    (t.st ≠ s.st → ∃ x, i = .ldStV x) ∧
    (t.mode ≠ s.mode → i = .low ∨ i = .high) ∧
    (t.fb ≠ s.fb → i = .cls ∨ i = .scr ∨ i = .scl ∨ i = .low ∨ i = .high ∨ (∃ n, i = .scd n) ∨
      ∃ x y n, i = .drw x y n) ∧
    (t.running ≠ s.running → i = .exit) ∧
    (t.await ≠ s.await → ∃ x, i = .ldVK x) ∧
    (t.fault ≠ s.fault → i = .ret ∨ (∃ nnn, i = .call nnn) ∨ (∃ x y n, i = .drw x y n) ∨
      ∃ x, i = .ldBV x ∨ i = .ldMemV x ∨ i = .ldVMem x) ∧
    t.toHostSide = s.toHostSide ∧ t.params = s.params

/-- `pc` leaves its advanced value only in JP, CALL, RET, JP I and the six skips, and a skip moves it by 2 mod 4096
(R27, R140). -/
def Obligations.OnlyControlFlowMovesPc : Prop :=
  ∀ (i : Instr) (s t : State), exec i s = .next t → t.pc ≠ s.pc →
    (∃ nnn, i = .jp nnn ∨ i = .call nnn ∨ i = .jpI nnn) ∨ i = .ret ∨
    (t.pc.toNat = (s.pc.toNat + 2) % 4096 ∧
      ((∃ x nn, i = .seImm x nn ∨ i = .sneImm x nn) ∨ (∃ x y, i = .seReg x y ∨ i = .sneReg x y) ∨
        ∃ x, i = .skp x ∨ i = .sknp x))

/-- No instruction but SKP and SKNP depends on the keys, none but RND on the random byte, and none on the sound timer:
with another input, or another `ST`, the next state is the same but for that value itself (R16, R172, R220, R221, R34).
LD ST writes `ST` whatever it was. -/
def Obligations.InputsReachOnlyTheirReaders : Prop :=
  ∀ (i : Instr) (s t : State) (k : Option Word) (b : Option Byte) (st : Byte), exec i s = .next t →
    ((∀ x, i ≠ .skp x ∧ i ≠ .sknp x) → exec i { s with keysIn := k } = .next { t with keysIn := k }) ∧
    ((∀ x nn, i ≠ .rnd x nn) → exec i { s with randIn := b } = .next { t with randIn := b }) ∧
    ((∀ x, i ≠ .ldStV x) → exec i { s with st := st } = .next { t with st := st }) ∧
    (∀ x, i = .ldStV x → exec i { s with st := st } = .next t)

end Statements
end

