-- ==== Sys2Proof/Laws/Decode.lean ====
section
/-! SUPPORT. The fields of a packed word, and of a word made of two bytes, so that no proof unfolds a bit slice (R81). -/

namespace Sys2Proof

/-! ## Words as numbers -/

theorem packXnn_toNat (op x : Nibble) (nn : Byte) :
    (packXnn op x nn).toNat = op.toNat * 4096 + x.toNat * 256 + nn.toNat := by
  have := nn.isLt; have := x.isLt
  show (op ++ x ++ nn).toNat = _
  rw [BitVec.toNat_append, BitVec.toNat_append, ← Nat.shiftLeft_add_eq_or_of_lt nn.isLt,
    ← Nat.shiftLeft_add_eq_or_of_lt x.isLt]
  simp only [Nat.shiftLeft_eq]; omega

theorem packNnn_toNat (op : Nibble) (nnn : Addr) : (packNnn op nnn).toNat = op.toNat * 4096 + nnn.toNat := by
  show (op ++ nnn).toNat = _
  rw [BitVec.toNat_append, ← Nat.shiftLeft_add_eq_or_of_lt nnn.isLt]
  simp only [Nat.shiftLeft_eq]

theorem packXyn_toNat (op x y n : Nibble) :
    (packXyn op x y n).toNat = op.toNat * 4096 + x.toNat * 256 + y.toNat * 16 + n.toNat := by
  show (op ++ x ++ y ++ n).toNat = _
  rw [BitVec.toNat_append, BitVec.toNat_append, BitVec.toNat_append, ← Nat.shiftLeft_add_eq_or_of_lt n.isLt,
    ← Nat.shiftLeft_add_eq_or_of_lt y.isLt, ← Nat.shiftLeft_add_eq_or_of_lt x.isLt]
  simp only [Nat.shiftLeft_eq]; omega

theorem wordOfBytes_toNat (hi lo : Byte) : (wordOfBytes hi lo).toNat = hi.toNat * 256 + lo.toNat := by
  show (hi ++ lo).toNat = _
  rw [BitVec.toNat_append, ← Nat.shiftLeft_add_eq_or_of_lt lo.isLt]
  simp only [Nat.shiftLeft_eq]

/-! ## Fields as numbers -/

theorem opOf_toNat (w : Word) : (opOf w).toNat = w.toNat / 4096 := by
  have := w.isLt
  simp only [opOf, BitVec.extractLsb'_toNat, Nat.shiftRight_eq_div_pow]; omega

theorem xOf_toNat (w : Word) : (xOf w).toNat = w.toNat / 256 % 16 := by
  simp only [xOf, BitVec.extractLsb'_toNat, Nat.shiftRight_eq_div_pow]

theorem yOf_toNat (w : Word) : (yOf w).toNat = w.toNat / 16 % 16 := by
  simp only [yOf, BitVec.extractLsb'_toNat, Nat.shiftRight_eq_div_pow]

theorem nOf_toNat (w : Word) : (nOf w).toNat = w.toNat % 16 := by
  simp [nOf, BitVec.extractLsb'_toNat]

theorem nnOf_toNat (w : Word) : (nnOf w).toNat = w.toNat % 256 := by
  simp [nnOf, BitVec.extractLsb'_toNat]

theorem nnnOf_toNat (w : Word) : (nnnOf w).toNat = w.toNat % 4096 := by
  simp [nnnOf, BitVec.extractLsb'_toNat]

/-! ## Fields of a packed word -/

section Xnn

variable (op x : Nibble) (nn : Byte)

@[simp] theorem opOf_packXnn : opOf (packXnn op x nn) = op := by
  apply BitVec.eq_of_toNat_eq
  rw [opOf_toNat, packXnn_toNat]; have := x.isLt; have := nn.isLt; omega

@[simp] theorem xOf_packXnn : xOf (packXnn op x nn) = x := by
  apply BitVec.eq_of_toNat_eq
  rw [xOf_toNat, packXnn_toNat]; have := x.isLt; have := nn.isLt; omega

@[simp] theorem nnOf_packXnn : nnOf (packXnn op x nn) = nn := by
  apply BitVec.eq_of_toNat_eq
  rw [nnOf_toNat, packXnn_toNat]; have := nn.isLt; omega

@[simp] theorem yOf_packXnn : yOf (packXnn op x nn) = nn.extractLsb' 4 4 := by
  apply BitVec.eq_of_toNat_eq
  rw [yOf_toNat, packXnn_toNat, BitVec.extractLsb'_toNat, Nat.shiftRight_eq_div_pow]; omega

@[simp] theorem nOf_packXnn : nOf (packXnn op x nn) = nn.extractLsb' 0 4 := by
  apply BitVec.eq_of_toNat_eq
  rw [nOf_toNat, packXnn_toNat, BitVec.extractLsb'_toNat, Nat.shiftRight_eq_div_pow]; omega

end Xnn

section Nnn

variable (op : Nibble) (nnn : Addr)

@[simp] theorem opOf_packNnn : opOf (packNnn op nnn) = op := by
  apply BitVec.eq_of_toNat_eq
  rw [opOf_toNat, packNnn_toNat]; have := nnn.isLt; omega

@[simp] theorem nnnOf_packNnn : nnnOf (packNnn op nnn) = nnn := by
  apply BitVec.eq_of_toNat_eq
  rw [nnnOf_toNat, packNnn_toNat]; have := nnn.isLt; omega

@[simp] theorem nnOf_packNnn : nnOf (packNnn op nnn) = nnn.extractLsb' 0 8 := by
  apply BitVec.eq_of_toNat_eq
  rw [nnOf_toNat, packNnn_toNat, BitVec.extractLsb'_toNat, Nat.shiftRight_eq_div_pow]; omega

@[simp] theorem yOf_packNnn : yOf (packNnn op nnn) = nnn.extractLsb' 4 4 := by
  apply BitVec.eq_of_toNat_eq
  rw [yOf_toNat, packNnn_toNat, BitVec.extractLsb'_toNat, Nat.shiftRight_eq_div_pow]; omega

end Nnn

section Xyn

variable (op x y n : Nibble)

@[simp] theorem opOf_packXyn : opOf (packXyn op x y n) = op := by
  apply BitVec.eq_of_toNat_eq
  rw [opOf_toNat, packXyn_toNat]; have := x.isLt; have := y.isLt; have := n.isLt; omega

@[simp] theorem xOf_packXyn : xOf (packXyn op x y n) = x := by
  apply BitVec.eq_of_toNat_eq
  rw [xOf_toNat, packXyn_toNat]; have := x.isLt; have := y.isLt; have := n.isLt; omega

@[simp] theorem yOf_packXyn : yOf (packXyn op x y n) = y := by
  apply BitVec.eq_of_toNat_eq
  rw [yOf_toNat, packXyn_toNat]; have := y.isLt; have := n.isLt; omega

@[simp] theorem nOf_packXyn : nOf (packXyn op x y n) = n := by
  apply BitVec.eq_of_toNat_eq
  rw [nOf_toNat, packXyn_toNat]; have := n.isLt; omega

@[simp] theorem nnOf_packXyn : nnOf (packXyn op x y n) = y ++ n := by
  apply BitVec.eq_of_toNat_eq
  rw [nnOf_toNat, packXyn_toNat, BitVec.toNat_append, ← Nat.shiftLeft_add_eq_or_of_lt n.isLt, Nat.shiftLeft_eq]
  have := y.isLt; have := n.isLt; omega

end Xyn

/-! ## Words and bytes -/

/-- The bytes of a word make that word again, and decoding them is decoding it. -/
theorem decode_bytesOfWord (w : Word) (rest : List Byte) :
    decode (bytesOfWord w ++ rest) = match decodeWord w with
      | .ok i => .ok (i, rest)
      | .error r => .error r := by
  have h : wordOfBytes (w.extractLsb' 8 8) (w.extractLsb' 0 8) = w := by
    apply BitVec.eq_of_toNat_eq
    have := w.isLt
    rw [wordOfBytes_toNat, BitVec.extractLsb'_toNat, BitVec.extractLsb'_toNat]
    simp only [Nat.shiftRight_eq_div_pow]; omega
  cases hd : decodeWord w <;> simp only [bytesOfWord, List.cons_append, List.nil_append, decode, h, hd]

/-- A word is its packed fields. -/
theorem packXyn_fields (w : Word) : packXyn (opOf w) (xOf w) (yOf w) (nOf w) = w := by
  apply BitVec.eq_of_toNat_eq
  have := w.isLt
  rw [packXyn_toNat, opOf_toNat, xOf_toNat, yOf_toNat, nOf_toNat]; omega

theorem packXnn_fields (w : Word) : packXnn (opOf w) (xOf w) (nnOf w) = w := by
  apply BitVec.eq_of_toNat_eq
  have := w.isLt
  rw [packXnn_toNat, opOf_toNat, xOf_toNat, nnOf_toNat]; omega

theorem packNnn_fields (w : Word) : packNnn (opOf w) (nnnOf w) = w := by
  apply BitVec.eq_of_toNat_eq
  have := w.isLt
  rw [packNnn_toNat, opOf_toNat, nnnOf_toNat]; omega

/-- A rejected word is rejected by its own name. -/
theorem decodeWord_error {w : Word} {r : Reject} (h : decodeWord w = .error r) : r = .unknownOpcode w := by
  unfold decodeWord at h
  split at h <;> first
    | cases h
    | (simp only [decodeEight, decodeE, decodeF] at h; split at h <;> first | (cases h; done) | (cases h; rfl))

end Sys2Proof
end

