-- ==== Sys2Proof/Laws/State.lean ====
section
/-! SUPPORT. One lemma per field per update of the state, all true by definition, so that no proof unfolds an
update. A field of the host's side is reached through `toHostSide`. -/

namespace Sys2Proof.Machine

variable (s : State)

section Setv

variable (x : Nibble) (b : Byte)

@[simp] theorem State.setV_mem : (s.setV x b).mem = s.mem := rfl
@[simp] theorem State.setV_v : (s.setV x b).v = s.v.set x.toNat b x.isLt := rfl
@[simp] theorem State.setV_i : (s.setV x b).i = s.i := rfl
@[simp] theorem State.setV_pc : (s.setV x b).pc = s.pc := rfl
@[simp] theorem State.setV_sp : (s.setV x b).sp = s.sp := rfl
@[simp] theorem State.setV_rpl : (s.setV x b).rpl = s.rpl := rfl
@[simp] theorem State.setV_dt : (s.setV x b).dt = s.dt := rfl
@[simp] theorem State.setV_st : (s.setV x b).st = s.st := rfl
@[simp] theorem State.setV_mode : (s.setV x b).mode = s.mode := rfl
@[simp] theorem State.setV_fb : (s.setV x b).fb = s.fb := rfl
@[simp] theorem State.setV_running : (s.setV x b).running = s.running := rfl
@[simp] theorem State.setV_await : (s.setV x b).await = s.await := rfl
@[simp] theorem State.setV_fault : (s.setV x b).fault = s.fault := rfl
@[simp] theorem State.setV_toHostSide : (s.setV x b).toHostSide = s.toHostSide := rfl
@[simp] theorem State.setV_params : (s.setV x b).params = s.params := rfl
@[simp] theorem State.setV_getRpl (r : Nibble) : (s.setV x b).getRpl r = s.getRpl r := rfl

end Setv

section Setrpl

variable (x : Nibble) (b : Byte)

@[simp] theorem State.setRpl_mem : (s.setRpl x b).mem = s.mem := rfl
@[simp] theorem State.setRpl_v : (s.setRpl x b).v = s.v := rfl
@[simp] theorem State.setRpl_i : (s.setRpl x b).i = s.i := rfl
@[simp] theorem State.setRpl_pc : (s.setRpl x b).pc = s.pc := rfl
@[simp] theorem State.setRpl_sp : (s.setRpl x b).sp = s.sp := rfl
@[simp] theorem State.setRpl_rpl : (s.setRpl x b).rpl = s.rpl.set x.toNat b x.isLt := rfl
@[simp] theorem State.setRpl_dt : (s.setRpl x b).dt = s.dt := rfl
@[simp] theorem State.setRpl_st : (s.setRpl x b).st = s.st := rfl
@[simp] theorem State.setRpl_mode : (s.setRpl x b).mode = s.mode := rfl
@[simp] theorem State.setRpl_fb : (s.setRpl x b).fb = s.fb := rfl
@[simp] theorem State.setRpl_running : (s.setRpl x b).running = s.running := rfl
@[simp] theorem State.setRpl_await : (s.setRpl x b).await = s.await := rfl
@[simp] theorem State.setRpl_fault : (s.setRpl x b).fault = s.fault := rfl
@[simp] theorem State.setRpl_toHostSide : (s.setRpl x b).toHostSide = s.toHostSide := rfl
@[simp] theorem State.setRpl_params : (s.setRpl x b).params = s.params := rfl
@[simp] theorem State.setRpl_getV (r : Nibble) : (s.setRpl x b).getV r = s.getV r := rfl

end Setrpl

section Seti

variable (a : Nat)

@[simp] theorem State.setI_mem : (s.setI a).mem = s.mem := rfl
@[simp] theorem State.setI_v : (s.setI a).v = s.v := rfl
@[simp] theorem State.setI_i : (s.setI a).i = BitVec.ofNat 12 a := rfl
@[simp] theorem State.setI_pc : (s.setI a).pc = s.pc := rfl
@[simp] theorem State.setI_sp : (s.setI a).sp = s.sp := rfl
@[simp] theorem State.setI_rpl : (s.setI a).rpl = s.rpl := rfl
@[simp] theorem State.setI_dt : (s.setI a).dt = s.dt := rfl
@[simp] theorem State.setI_st : (s.setI a).st = s.st := rfl
@[simp] theorem State.setI_mode : (s.setI a).mode = s.mode := rfl
@[simp] theorem State.setI_fb : (s.setI a).fb = s.fb := rfl
@[simp] theorem State.setI_running : (s.setI a).running = s.running := rfl
@[simp] theorem State.setI_await : (s.setI a).await = s.await := rfl
@[simp] theorem State.setI_fault : (s.setI a).fault = s.fault := rfl
@[simp] theorem State.setI_toHostSide : (s.setI a).toHostSide = s.toHostSide := rfl
@[simp] theorem State.setI_params : (s.setI a).params = s.params := rfl
@[simp] theorem State.setI_getV (r : Nibble) : (s.setI a).getV r = s.getV r := rfl
@[simp] theorem State.setI_getRpl (r : Nibble) : (s.setI a).getRpl r = s.getRpl r := rfl

end Seti

section Setpc

variable (a : Nat)

@[simp] theorem State.setPc_mem : (s.setPc a).mem = s.mem := rfl
@[simp] theorem State.setPc_v : (s.setPc a).v = s.v := rfl
@[simp] theorem State.setPc_i : (s.setPc a).i = s.i := rfl
@[simp] theorem State.setPc_pc : (s.setPc a).pc = BitVec.ofNat 12 a := rfl
@[simp] theorem State.setPc_sp : (s.setPc a).sp = s.sp := rfl
@[simp] theorem State.setPc_rpl : (s.setPc a).rpl = s.rpl := rfl
@[simp] theorem State.setPc_dt : (s.setPc a).dt = s.dt := rfl
@[simp] theorem State.setPc_st : (s.setPc a).st = s.st := rfl
@[simp] theorem State.setPc_mode : (s.setPc a).mode = s.mode := rfl
@[simp] theorem State.setPc_fb : (s.setPc a).fb = s.fb := rfl
@[simp] theorem State.setPc_running : (s.setPc a).running = s.running := rfl
@[simp] theorem State.setPc_await : (s.setPc a).await = s.await := rfl
@[simp] theorem State.setPc_fault : (s.setPc a).fault = s.fault := rfl
@[simp] theorem State.setPc_toHostSide : (s.setPc a).toHostSide = s.toHostSide := rfl
@[simp] theorem State.setPc_params : (s.setPc a).params = s.params := rfl
@[simp] theorem State.setPc_getV (r : Nibble) : (s.setPc a).getV r = s.getV r := rfl
@[simp] theorem State.setPc_getRpl (r : Nibble) : (s.setPc a).getRpl r = s.getRpl r := rfl

end Setpc

section Advance


@[simp] theorem State.advance_mem : (s.advance).mem = s.mem := rfl
@[simp] theorem State.advance_v : (s.advance).v = s.v := rfl
@[simp] theorem State.advance_i : (s.advance).i = s.i := rfl
@[simp] theorem State.advance_pc : (s.advance).pc = BitVec.ofNat 12 (s.pc.toNat + 2) := rfl
@[simp] theorem State.advance_sp : (s.advance).sp = s.sp := rfl
@[simp] theorem State.advance_rpl : (s.advance).rpl = s.rpl := rfl
@[simp] theorem State.advance_dt : (s.advance).dt = s.dt := rfl
@[simp] theorem State.advance_st : (s.advance).st = s.st := rfl
@[simp] theorem State.advance_mode : (s.advance).mode = s.mode := rfl
@[simp] theorem State.advance_fb : (s.advance).fb = s.fb := rfl
@[simp] theorem State.advance_running : (s.advance).running = s.running := rfl
@[simp] theorem State.advance_await : (s.advance).await = s.await := rfl
@[simp] theorem State.advance_fault : (s.advance).fault = s.fault := rfl
@[simp] theorem State.advance_toHostSide : (s.advance).toHostSide = s.toHostSide := rfl
@[simp] theorem State.advance_params : (s.advance).params = s.params := rfl
@[simp] theorem State.advance_getV (r : Nibble) : (s.advance).getV r = s.getV r := rfl
@[simp] theorem State.advance_getRpl (r : Nibble) : (s.advance).getRpl r = s.getRpl r := rfl

end Advance

section Skip


@[simp] theorem State.skip_mem : (s.skip).mem = s.mem := rfl
@[simp] theorem State.skip_v : (s.skip).v = s.v := rfl
@[simp] theorem State.skip_i : (s.skip).i = s.i := rfl
@[simp] theorem State.skip_pc : (s.skip).pc = BitVec.ofNat 12 (s.pc.toNat + 2) := rfl
@[simp] theorem State.skip_sp : (s.skip).sp = s.sp := rfl
@[simp] theorem State.skip_rpl : (s.skip).rpl = s.rpl := rfl
@[simp] theorem State.skip_dt : (s.skip).dt = s.dt := rfl
@[simp] theorem State.skip_st : (s.skip).st = s.st := rfl
@[simp] theorem State.skip_mode : (s.skip).mode = s.mode := rfl
@[simp] theorem State.skip_fb : (s.skip).fb = s.fb := rfl
@[simp] theorem State.skip_running : (s.skip).running = s.running := rfl
@[simp] theorem State.skip_await : (s.skip).await = s.await := rfl
@[simp] theorem State.skip_fault : (s.skip).fault = s.fault := rfl
@[simp] theorem State.skip_toHostSide : (s.skip).toHostSide = s.toHostSide := rfl
@[simp] theorem State.skip_params : (s.skip).params = s.params := rfl
@[simp] theorem State.skip_getV (r : Nibble) : (s.skip).getV r = s.getV r := rfl
@[simp] theorem State.skip_getRpl (r : Nibble) : (s.skip).getRpl r = s.getRpl r := rfl

end Skip

section Skipif

variable (c : Bool)

@[simp] theorem State.skipIf_mem : (s.skipIf c).mem = s.mem := rfl
@[simp] theorem State.skipIf_v : (s.skipIf c).v = s.v := rfl
@[simp] theorem State.skipIf_i : (s.skipIf c).i = s.i := rfl
@[simp] theorem State.skipIf_pc : (s.skipIf c).pc = if c then BitVec.ofNat 12 (s.pc.toNat + 2) else s.pc := rfl
@[simp] theorem State.skipIf_sp : (s.skipIf c).sp = s.sp := rfl
@[simp] theorem State.skipIf_rpl : (s.skipIf c).rpl = s.rpl := rfl
@[simp] theorem State.skipIf_dt : (s.skipIf c).dt = s.dt := rfl
@[simp] theorem State.skipIf_st : (s.skipIf c).st = s.st := rfl
@[simp] theorem State.skipIf_mode : (s.skipIf c).mode = s.mode := rfl
@[simp] theorem State.skipIf_fb : (s.skipIf c).fb = s.fb := rfl
@[simp] theorem State.skipIf_running : (s.skipIf c).running = s.running := rfl
@[simp] theorem State.skipIf_await : (s.skipIf c).await = s.await := rfl
@[simp] theorem State.skipIf_fault : (s.skipIf c).fault = s.fault := rfl
@[simp] theorem State.skipIf_toHostSide : (s.skipIf c).toHostSide = s.toHostSide := rfl
@[simp] theorem State.skipIf_params : (s.skipIf c).params = s.params := rfl
@[simp] theorem State.skipIf_getV (r : Nibble) : (s.skipIf c).getV r = s.getV r := rfl
@[simp] theorem State.skipIf_getRpl (r : Nibble) : (s.skipIf c).getRpl r = s.getRpl r := rfl

end Skipif

section Raise

variable (e : Fault)

@[simp] theorem State.raise_mem : (s.raise e).mem = s.mem := rfl
@[simp] theorem State.raise_v : (s.raise e).v = s.v := rfl
@[simp] theorem State.raise_i : (s.raise e).i = s.i := rfl
@[simp] theorem State.raise_pc : (s.raise e).pc = s.pc := rfl
@[simp] theorem State.raise_sp : (s.raise e).sp = s.sp := rfl
@[simp] theorem State.raise_rpl : (s.raise e).rpl = s.rpl := rfl
@[simp] theorem State.raise_dt : (s.raise e).dt = s.dt := rfl
@[simp] theorem State.raise_st : (s.raise e).st = s.st := rfl
@[simp] theorem State.raise_mode : (s.raise e).mode = s.mode := rfl
@[simp] theorem State.raise_fb : (s.raise e).fb = s.fb := rfl
@[simp] theorem State.raise_running : (s.raise e).running = s.running := rfl
@[simp] theorem State.raise_await : (s.raise e).await = s.await := rfl
@[simp] theorem State.raise_fault : (s.raise e).fault = some e := rfl
@[simp] theorem State.raise_toHostSide : (s.raise e).toHostSide = s.toHostSide := rfl
@[simp] theorem State.raise_params : (s.raise e).params = s.params := rfl
@[simp] theorem State.raise_getV (r : Nibble) : (s.raise e).getV r = s.getV r := rfl
@[simp] theorem State.raise_getRpl (r : Nibble) : (s.raise e).getRpl r = s.getRpl r := rfl

end Raise

section Setresultandflag

variable (r : Nibble) (b f : Byte)

@[simp] theorem State.setResultAndFlag_mem : (s.setResultAndFlag r b f).mem = s.mem := rfl
@[simp] theorem State.setResultAndFlag_i : (s.setResultAndFlag r b f).i = s.i := rfl
@[simp] theorem State.setResultAndFlag_pc : (s.setResultAndFlag r b f).pc = s.pc := rfl
@[simp] theorem State.setResultAndFlag_sp : (s.setResultAndFlag r b f).sp = s.sp := rfl
@[simp] theorem State.setResultAndFlag_rpl : (s.setResultAndFlag r b f).rpl = s.rpl := rfl
@[simp] theorem State.setResultAndFlag_dt : (s.setResultAndFlag r b f).dt = s.dt := rfl
@[simp] theorem State.setResultAndFlag_st : (s.setResultAndFlag r b f).st = s.st := rfl
@[simp] theorem State.setResultAndFlag_mode : (s.setResultAndFlag r b f).mode = s.mode := rfl
@[simp] theorem State.setResultAndFlag_fb : (s.setResultAndFlag r b f).fb = s.fb := rfl
@[simp] theorem State.setResultAndFlag_running : (s.setResultAndFlag r b f).running = s.running := rfl
@[simp] theorem State.setResultAndFlag_await : (s.setResultAndFlag r b f).await = s.await := rfl
@[simp] theorem State.setResultAndFlag_fault : (s.setResultAndFlag r b f).fault = s.fault := rfl
@[simp] theorem State.setResultAndFlag_toHostSide : (s.setResultAndFlag r b f).toHostSide = s.toHostSide := rfl
@[simp] theorem State.setResultAndFlag_params : (s.setResultAndFlag r b f).params = s.params := rfl
@[simp] theorem State.setResultAndFlag_getRpl (r : Nibble) : (s.setResultAndFlag r b f).getRpl r = s.getRpl r := rfl

end Setresultandflag

section Selectmode

variable (m : Mode)

@[simp] theorem State.selectMode_mem : (s.selectMode m).mem = s.mem := rfl
@[simp] theorem State.selectMode_v : (s.selectMode m).v = s.v := rfl
@[simp] theorem State.selectMode_i : (s.selectMode m).i = s.i := rfl
@[simp] theorem State.selectMode_pc : (s.selectMode m).pc = s.pc := rfl
@[simp] theorem State.selectMode_sp : (s.selectMode m).sp = s.sp := rfl
@[simp] theorem State.selectMode_rpl : (s.selectMode m).rpl = s.rpl := rfl
@[simp] theorem State.selectMode_dt : (s.selectMode m).dt = s.dt := rfl
@[simp] theorem State.selectMode_st : (s.selectMode m).st = s.st := rfl
@[simp] theorem State.selectMode_mode : (s.selectMode m).mode = m := rfl
@[simp] theorem State.selectMode_fb : (s.selectMode m).fb = Framebuffer.blank m := rfl
@[simp] theorem State.selectMode_running : (s.selectMode m).running = s.running := rfl
@[simp] theorem State.selectMode_await : (s.selectMode m).await = s.await := rfl
@[simp] theorem State.selectMode_fault : (s.selectMode m).fault = s.fault := rfl
@[simp] theorem State.selectMode_toHostSide : (s.selectMode m).toHostSide = s.toHostSide := rfl
@[simp] theorem State.selectMode_params : (s.selectMode m).params = s.params := rfl
@[simp] theorem State.selectMode_getV (r : Nibble) : (s.selectMode m).getV r = s.getV r := rfl
@[simp] theorem State.selectMode_getRpl (r : Nibble) : (s.selectMode m).getRpl r = s.getRpl r := rfl

end Selectmode

section Tick


@[simp] theorem State.tick_mem : (s.tick).mem = s.mem := rfl
@[simp] theorem State.tick_v : (s.tick).v = s.v := rfl
@[simp] theorem State.tick_i : (s.tick).i = s.i := rfl
@[simp] theorem State.tick_pc : (s.tick).pc = s.pc := rfl
@[simp] theorem State.tick_sp : (s.tick).sp = s.sp := rfl
@[simp] theorem State.tick_rpl : (s.tick).rpl = s.rpl := rfl
@[simp] theorem State.tick_dt : (s.tick).dt = countDown s.dt := rfl
@[simp] theorem State.tick_st : (s.tick).st = countDown s.st := rfl
@[simp] theorem State.tick_mode : (s.tick).mode = s.mode := rfl
@[simp] theorem State.tick_fb : (s.tick).fb = s.fb := rfl
@[simp] theorem State.tick_running : (s.tick).running = s.running := rfl
@[simp] theorem State.tick_await : (s.tick).await = s.await := rfl
@[simp] theorem State.tick_fault : (s.tick).fault = s.fault := rfl
@[simp] theorem State.tick_toHostSide : (s.tick).toHostSide = s.toHostSide := rfl
@[simp] theorem State.tick_params : (s.tick).params = s.params := rfl
@[simp] theorem State.tick_getV (r : Nibble) : (s.tick).getV r = s.getV r := rfl
@[simp] theorem State.tick_getRpl (r : Nibble) : (s.tick).getRpl r = s.getRpl r := rfl

end Tick

section Drawsprite

variable (x y : Nibble) (rows cols : Nat) (data : List Nat)

@[simp] theorem State.drawSprite_mem : (s.drawSprite x y rows cols data).mem = s.mem := rfl
@[simp] theorem State.drawSprite_i : (s.drawSprite x y rows cols data).i = s.i := rfl
@[simp] theorem State.drawSprite_pc : (s.drawSprite x y rows cols data).pc = s.pc := rfl
@[simp] theorem State.drawSprite_sp : (s.drawSprite x y rows cols data).sp = s.sp := rfl
@[simp] theorem State.drawSprite_rpl : (s.drawSprite x y rows cols data).rpl = s.rpl := rfl
@[simp] theorem State.drawSprite_dt : (s.drawSprite x y rows cols data).dt = s.dt := rfl
@[simp] theorem State.drawSprite_st : (s.drawSprite x y rows cols data).st = s.st := rfl
@[simp] theorem State.drawSprite_mode : (s.drawSprite x y rows cols data).mode = s.mode := rfl
@[simp] theorem State.drawSprite_running : (s.drawSprite x y rows cols data).running = s.running := rfl
@[simp] theorem State.drawSprite_await : (s.drawSprite x y rows cols data).await = s.await := rfl
@[simp] theorem State.drawSprite_fault : (s.drawSprite x y rows cols data).fault = s.fault := rfl
@[simp] theorem State.drawSprite_toHostSide : (s.drawSprite x y rows cols data).toHostSide = s.toHostSide := rfl
@[simp] theorem State.drawSprite_params : (s.drawSprite x y rows cols data).params = s.params := rfl
@[simp] theorem State.drawSprite_getRpl (r : Nibble) : (s.drawSprite x y rows cols data).getRpl r = s.getRpl r := rfl

end Drawsprite

section Fail

variable (e : Fault)

@[simp] theorem State.fail_mem : (s.fail e).mem = s.mem := rfl
@[simp] theorem State.fail_v : (s.fail e).v = s.v := rfl
@[simp] theorem State.fail_i : (s.fail e).i = s.i := rfl
@[simp] theorem State.fail_pc : (s.fail e).pc = s.pc := rfl
@[simp] theorem State.fail_sp : (s.fail e).sp = s.sp := rfl
@[simp] theorem State.fail_rpl : (s.fail e).rpl = s.rpl := rfl
@[simp] theorem State.fail_dt : (s.fail e).dt = s.dt := rfl
@[simp] theorem State.fail_st : (s.fail e).st = s.st := rfl
@[simp] theorem State.fail_mode : (s.fail e).mode = s.mode := rfl
@[simp] theorem State.fail_fb : (s.fail e).fb = s.fb := rfl
@[simp] theorem State.fail_running : (s.fail e).running = s.running := rfl
@[simp] theorem State.fail_await : (s.fail e).await = s.await := rfl
@[simp] theorem State.fail_fault : (s.fail e).fault = some e := rfl
@[simp] theorem State.fail_response : (s.fail e).response = .stepped (.faulted e) none := rfl
@[simp] theorem State.fail_params : (s.fail e).params = s.params := rfl
@[simp] theorem State.fail_getV (r : Nibble) : (s.fail e).getV r = s.getV r := rfl
@[simp] theorem State.fail_getRpl (r : Nibble) : (s.fail e).getRpl r = s.getRpl r := rfl

end Fail

section Respond

variable (r : Response)

@[simp] theorem State.respond_toArch : (s.respond r).toArch = s.toArch := rfl
@[simp] theorem State.respond_pending : (s.respond r).pending = s.pending := rfl
@[simp] theorem State.respond_inputIx : (s.respond r).inputIx = s.inputIx := rfl
@[simp] theorem State.respond_keysIn : (s.respond r).keysIn = s.keysIn := rfl
@[simp] theorem State.respond_randIn : (s.respond r).randIn = s.randIn := rfl
@[simp] theorem State.respond_started : (s.respond r).started = s.started := rfl
@[simp] theorem State.respond_response : (s.respond r).response = r := rfl
@[simp] theorem State.respond_params : (s.respond r).params = s.params := rfl
@[simp] theorem State.respond_getV (x : Nibble) : (s.respond r).getV x = s.getV x := rfl
@[simp] theorem State.respond_getRpl (x : Nibble) : (s.respond r).getRpl x = s.getRpl x := rfl

end Respond

section Sample

variable (k : Option Word) (b : Option Byte)

@[simp] theorem State.sample_toArch : (s.sample k b).toArch = s.toArch := rfl
@[simp] theorem State.sample_pending : (s.sample k b).pending = s.pending := rfl
@[simp] theorem State.sample_inputIx : (s.sample k b).inputIx = s.inputIx + 1 := rfl
@[simp] theorem State.sample_keysIn : (s.sample k b).keysIn = k := rfl
@[simp] theorem State.sample_randIn : (s.sample k b).randIn = b := rfl
@[simp] theorem State.sample_started : (s.sample k b).started = true := rfl
@[simp] theorem State.sample_response : (s.sample k b).response = s.response := rfl
@[simp] theorem State.sample_params : (s.sample k b).params = s.params := rfl
@[simp] theorem State.sample_getV (x : Nibble) : (s.sample k b).getV x = s.getV x := rfl
@[simp] theorem State.sample_getRpl (x : Nibble) : (s.sample k b).getRpl x = s.getRpl x := rfl

end Sample

end Sys2Proof.Machine
end

