-- ==== Sys2Proof/Laws/Memory.lean ====
section
/-! SUPPORT. What memory and its primitives do: read after write, writes elsewhere, the canonical form, and each
primitive's two outcomes (R50 to R58). -/

namespace Sys2Proof.Machine

/-! ## One byte -/

@[simp] theorem Memory.read_nil (a : Nat) : Memory.read [] a = unlisted := rfl

theorem Memory.read_cons (b : Nat) (v : Byte) (m : Memory) (a : Nat) :
    Memory.read ((b, v) :: m) a = if a = b then v else Memory.read m a := rfl

theorem Memory.erase_cons (b : Nat) (v : Byte) (m : Memory) (a : Nat) :
    Memory.erase ((b, v) :: m) a = if b = a then Memory.erase m a else (b, v) :: Memory.erase m a := by
  by_cases h : b = a <;> simp [Memory.erase, h]

theorem Memory.read_erase_same (m : Memory) (a : Nat) : (m.erase a).read a = unlisted := by
  induction m with
  | nil => rfl
  | cons c m ih =>
    obtain ⟨b, v⟩ := c
    rw [Memory.erase_cons]
    split
    · exact ih
    · rw [Memory.read_cons, if_neg (by omega), ih]

theorem Memory.read_erase_other (m : Memory) {a b : Nat} (h : b ≠ a) : (m.erase a).read b = m.read b := by
  induction m with
  | nil => rfl
  | cons c m ih =>
    obtain ⟨k, v⟩ := c
    rw [Memory.erase_cons, Memory.read_cons]
    split
    · rw [ih, if_neg (by omega)]
    · rw [Memory.read_cons, ih]

theorem Memory.read_insert_same (m : Memory) (a : Nat) (v : Byte) :
    (∀ c ∈ m, c.1 ≠ a) → (m.insert a v).read a = v := by
  intro hm
  induction m with
  | nil => simp [Memory.insert, Memory.read]
  | cons c m ih =>
    obtain ⟨k, u⟩ := c
    have hk : k ≠ a := hm (k, u) (by simp)
    unfold Memory.insert
    split
    · simp [Memory.read]
    · rw [Memory.read_cons, if_neg (by omega)]
      exact ih fun c hc => hm c (by simp [hc])

theorem Memory.read_insert_other (m : Memory) {a b : Nat} (v : Byte) (h : b ≠ a) :
    (m.insert a v).read b = m.read b := by
  induction m with
  | nil => simp [Memory.insert, Memory.read, h]
  | cons c m ih =>
    obtain ⟨k, u⟩ := c
    unfold Memory.insert
    split
    · rw [Memory.read_cons, if_neg h]
    · rw [Memory.read_cons, Memory.read_cons, ih]

theorem Memory.erase_ne (m : Memory) (a : Nat) : ∀ c ∈ m.erase a, c.1 ≠ a := by
  intro c hc
  simpa using (List.mem_filter.mp hc).2

/-- A byte written reads back. -/
@[simp] theorem Memory.read_put_same (m : Memory) (a : Nat) (v : Byte) : (m.put a v).read a = v := by
  unfold Memory.put
  split
  · next h => rw [Memory.read_erase_same, h]
  · exact Memory.read_insert_same _ _ _ (Memory.erase_ne m a)

/-- A byte written leaves every other byte alone (R64). -/
theorem Memory.read_put_other (m : Memory) {a b : Nat} (v : Byte) (h : b ≠ a) : (m.put a v).read b = m.read b := by
  unfold Memory.put
  split
  · exact Memory.read_erase_other m h
  · rw [Memory.read_insert_other _ _ h, Memory.read_erase_other m h]

theorem Memory.read_put (m : Memory) (a b : Nat) (v : Byte) :
    (m.put a v).read b = if b = a then v else m.read b := by
  by_cases h : b = a
  · simp [h]
  · simp [h, Memory.read_put_other]

/-! ## Consecutive bytes -/

/-- What memory reads after consecutive bytes are written. -/
theorem Memory.read_putAll (m : Memory) (a : Nat) (vs : List Byte) (b : Nat) :
    (m.putAll a vs).read b = if a ≤ b ∧ b < a + vs.length then vs.getD (b - a) 0 else m.read b := by
  induction vs generalizing m a with
  | nil => simp [Memory.putAll]
  | cons v vs ih =>
    rw [Memory.putAll, ih, Memory.read_put]
    by_cases h1 : b = a
    · subst h1; simp
    · simp only [List.length_cons, h1, if_false]
      by_cases h2 : a + 1 ≤ b ∧ b < a + 1 + vs.length
      · rw [if_pos h2, if_pos (by omega)]
        rw [show b - a = (b - (a + 1)) + 1 by omega, List.getD_cons_succ]
      · rw [if_neg h2, if_neg (by omega)]

/-! ## The canonical form -/

theorem Memory.wfFrom_mono {m : Memory} {lo lo' : Nat} (h : lo' ≤ lo) (hm : Memory.wfFrom lo m = true) :
    Memory.wfFrom lo' m = true := by
  cases m with
  | nil => rfl
  | cons c m =>
    obtain ⟨a, v⟩ := c
    simp only [Memory.wfFrom, Bool.and_eq_true, decide_eq_true_eq] at hm ⊢
    exact ⟨⟨⟨by omega, hm.1.1.2⟩, hm.1.2⟩, hm.2⟩

theorem Memory.wfFrom_erase {m : Memory} {lo : Nat} (a : Nat) (hm : Memory.wfFrom lo m = true) :
    Memory.wfFrom lo (m.erase a) = true := by
  induction m generalizing lo with
  | nil => rfl
  | cons c m ih =>
    obtain ⟨b, v⟩ := c
    simp only [Memory.wfFrom, Bool.and_eq_true, decide_eq_true_eq] at hm
    rw [Memory.erase_cons]
    split
    · exact Memory.wfFrom_mono (by omega) (ih hm.2)
    · simp only [Memory.wfFrom, Bool.and_eq_true, decide_eq_true_eq]
      exact ⟨hm.1, ih hm.2⟩

theorem Memory.wfFrom_insert {m : Memory} {lo a : Nat} {v : Byte} (hm : Memory.wfFrom lo m = true)
    (hne : ∀ c ∈ m, c.1 ≠ a) (hlo : lo ≤ a) (ha : a < 4096) (hv : v ≠ unlisted) :
    Memory.wfFrom lo (m.insert a v) = true := by
  induction m generalizing lo with
  | nil => simpa [Memory.insert, Memory.wfFrom, hlo] using ⟨ha, hv⟩
  | cons c m ih =>
    obtain ⟨b, u⟩ := c
    have hb : b ≠ a := hne (b, u) (by simp)
    have hm' := hm
    simp only [Memory.wfFrom, Bool.and_eq_true, decide_eq_true_eq] at hm
    unfold Memory.insert
    split
    · simp only [Memory.wfFrom, Bool.and_eq_true, decide_eq_true_eq]
      exact ⟨⟨⟨hlo, ha⟩, by simpa using hv⟩, ⟨⟨by omega, hm.1.1.2⟩, hm.1.2⟩, hm.2⟩
    · simp only [Memory.wfFrom, Bool.and_eq_true, decide_eq_true_eq]
      exact ⟨hm.1, ih hm.2 (fun c hc => hne c (by simp [hc])) (by omega)⟩

/-- Writing a byte of the address space keeps the canonical form. -/
theorem Memory.wf_put {m : Memory} {a : Nat} (v : Byte) (hm : m.wf = true) (ha : a < 4096) :
    (m.put a v).wf = true := by
  unfold Memory.put
  split
  · exact Memory.wfFrom_erase a hm
  · next hv => exact Memory.wfFrom_insert (Memory.wfFrom_erase a hm) (Memory.erase_ne m a) (Nat.zero_le a) ha hv

/-- Writing consecutive bytes of the address space keeps the canonical form. -/
theorem Memory.wf_putAll {m : Memory} {a : Nat} (vs : List Byte) (hm : m.wf = true)
    (ha : a + vs.length ≤ 4096) : (m.putAll a vs).wf = true := by
  induction vs generalizing m a with
  | nil => exact hm
  | cons v vs ih =>
    simp only [List.length_cons] at ha
    exact ih (Memory.wf_put v hm (by omega)) (by omega)

theorem Memory.read_below {m : Memory} {lo b : Nat} (hm : Memory.wfFrom lo m = true) (hb : b < lo) :
    m.read b = unlisted := by
  induction m generalizing lo with
  | nil => rfl
  | cons c m ih =>
    obtain ⟨a, v⟩ := c
    simp only [Memory.wfFrom, Bool.and_eq_true, decide_eq_true_eq] at hm
    rw [Memory.read_cons, if_neg (by omega)]
    exact ih hm.2 (by omega)

theorem Memory.eq_of_wfFrom {m m' : Memory} {lo : Nat} (hm : Memory.wfFrom lo m = true)
    (hm' : Memory.wfFrom lo m' = true) (h : ∀ a, m.read a = m'.read a) : m = m' := by
  induction m generalizing m' lo with
  | nil =>
    cases m' with
    | nil => rfl
    | cons c' m' =>
      obtain ⟨b, u⟩ := c'
      simp only [Memory.wfFrom, Bool.and_eq_true] at hm'
      have := h b
      simp [Memory.read_cons] at this
      simp [← this] at hm'
  | cons c m ih =>
    obtain ⟨a, v⟩ := c
    cases m' with
    | nil =>
      simp only [Memory.wfFrom, Bool.and_eq_true] at hm
      have := h a
      simp [Memory.read_cons] at this
      simp [this] at hm
    | cons c' m' =>
      obtain ⟨b, u⟩ := c'
      simp only [Memory.wfFrom, Bool.and_eq_true, decide_eq_true_eq, bne_iff_ne] at hm hm'
      have hab : a = b := by
        rcases Nat.lt_trichotomy a b with hlt | heq | hgt
        · have h1 := h a
          rw [Memory.read_cons, if_pos rfl, Memory.read_cons, if_neg (by omega),
            Memory.read_below hm'.2 (by omega)] at h1
          exact absurd h1 hm.1.2
        · exact heq
        · have h1 := h b
          rw [Memory.read_cons, if_neg (by omega), Memory.read_below hm.2 (by omega), Memory.read_cons,
            if_pos rfl] at h1
          exact absurd h1.symm hm'.1.2
      subst hab
      have hv : v = u := by simpa [Memory.read_cons] using h a
      subst hv
      rw [ih hm.2 hm'.2]
      intro b
      by_cases hb : b = a
      · subst hb
        rw [Memory.read_below hm.2 (by omega), Memory.read_below hm'.2 (by omega)]
      · simpa [Memory.read_cons, hb] using h b

/-- Memories in canonical form that read alike are equal. -/
theorem Memory.eq_of_read_eq {m m' : Memory} (hm : m.wf = true) (hm' : m'.wf = true)
    (h : ∀ a, m.read a = m'.read a) : m = m' := Memory.eq_of_wfFrom hm hm' h

/-! ## The primitives -/

/-- The range check passes exactly on ranges inside memory and on empty ranges (R58). -/
theorem checkRange_eq (a n : Nat) :
    checkRange a n = if n = 0 ∨ InMemory a n then .ok () else .error (.addressError a n) := by
  unfold checkRange InMemory
  simp only [Config.memSize]
  by_cases h : 0 < n ∧ 4096 ≤ a + n - 1
  · rw [if_pos h, if_neg (by omega)]
  · rw [if_neg h, if_pos (by omega)]

theorem checkRange_ok {a n : Nat} (h : InMemory a n) : checkRange a n = .ok () := by
  rw [checkRange_eq, if_pos (Or.inr h)]

theorem checkRange_error {a n : Nat} (hn : n ≠ 0) (h : ¬ InMemory a n) :
    checkRange a n = .error (.addressError a n) := by
  rw [checkRange_eq, if_neg (by simp only [not_or]; exact ⟨hn, h⟩)]

/-- `MemRead(a, 1)` (R52). -/
theorem Memory.read8_eq (m : Memory) (a : Nat) :
    m.read8 a = if InMemory a 1 then .ok (m.read a) else .error (.addressError a 1) := by
  unfold Memory.read8; rw [checkRange_eq]; by_cases h : InMemory a 1 <;> simp [h]

/-- `MemRead(a, 2)` (R53). -/
theorem Memory.read16_eq (m : Memory) (a : Nat) :
    m.read16 a = if InMemory a 2 then .ok (m.read a ++ m.read (a + 1)) else .error (.addressError a 2) := by
  unfold Memory.read16; rw [checkRange_eq]; by_cases h : InMemory a 2 <;> simp [h]

/-- `MemReadBlock(a, n)` (R54). -/
theorem Memory.readBlock_eq (m : Memory) (a n : Nat) :
    m.readBlock a n = if n = 0 ∨ InMemory a n then .ok ((List.range n).map fun k => m.read (a + k))
      else .error (.addressError a n) := by
  unfold Memory.readBlock; rw [checkRange_eq]; by_cases h : n = 0 ∨ InMemory a n <;> simp only [h] <;> rfl

/-- `MemWrite(a, 1, v)` (R55). -/
theorem Memory.write8_eq (m : Memory) (a v : Nat) :
    m.write8 a v = if InMemory a 1 then .ok (m.put a (BitVec.ofNat 8 v)) else .error (.addressError a 1) := by
  unfold Memory.write8; rw [checkRange_eq]; by_cases h : InMemory a 1 <;> simp [h]

/-- `MemWrite(a, 2, v)` (R56). -/
theorem Memory.write16_eq (m : Memory) (a v : Nat) :
    m.write16 a v = if InMemory a 2 then
        .ok ((m.put a (BitVec.ofNat 8 (v >>> 8))).put (a + 1) (BitVec.ofNat 8 v))
      else .error (.addressError a 2) := by
  unfold Memory.write16; rw [checkRange_eq]; by_cases h : InMemory a 2 <;> simp [h]

/-- `MemWriteBlock(a, bs)` (R57). -/
theorem Memory.writeBlock_eq (m : Memory) (a : Nat) (bs : List Byte) :
    m.writeBlock a bs = if bs.length = 0 ∨ InMemory a bs.length then .ok (m.putAll a bs)
      else .error (.addressError a bs.length) := by
  unfold Memory.writeBlock; rw [checkRange_eq]
  by_cases h : bs.length = 0 ∨ InMemory a bs.length <;> simp only [h] <;> rfl

/-- A write that succeeds keeps the canonical form. -/
theorem Memory.wf_write8 {m m' : Memory} {a v : Nat} (h : m.write8 a v = .ok m') (hm : m.wf = true) :
    m'.wf = true := by
  rw [Memory.write8_eq] at h
  split at h
  · next ha => cases h; exact Memory.wf_put _ hm (by unfold InMemory at ha; omega)
  · cases h

theorem Memory.wf_write16 {m m' : Memory} {a v : Nat} (h : m.write16 a v = .ok m') (hm : m.wf = true) :
    m'.wf = true := by
  rw [Memory.write16_eq] at h
  split at h
  · next ha =>
    cases h
    unfold InMemory at ha
    exact Memory.wf_put _ (Memory.wf_put _ hm (by omega)) (by omega)
  · cases h

theorem Memory.wf_writeBlock {m m' : Memory} {a : Nat} {bs : List Byte} (h : m.writeBlock a bs = .ok m')
    (hm : m.wf = true) : m'.wf = true := by
  rw [Memory.writeBlock_eq] at h
  split at h
  · next ha =>
    cases h
    rcases ha with h0 | ha
    · rw [List.length_eq_zero_iff.mp h0]; exact hm
    · exact Memory.wf_putAll bs hm ha
  · cases h

end Sys2Proof.Machine
end

