-- ==== Sys2Proof/Laws/Registers.lean ====
section
/-! SUPPORT. Reading a register after a write, the register prefixes, and the flags as numbers (R13, R22, R173). -/

namespace Sys2Proof.Machine

/-! ## Single registers -/

@[simp] theorem State.getV_setV_same (s : State) (x : Nibble) (b : Byte) : (s.setV x b).getV x = b := by
  simp [State.getV, State.setV]

theorem State.getV_setV_other (s : State) {x r : Nibble} (b : Byte) (h : r ≠ x) :
    (s.setV x b).getV r = s.getV r := by
  have : x.toNat ≠ r.toNat := fun e => h (BitVec.eq_of_toNat_eq e.symm)
  simp [State.getV, State.setV, this]

theorem State.getV_setV (s : State) (x r : Nibble) (b : Byte) :
    (s.setV x b).getV r = if r = x then b else s.getV r := by
  by_cases h : r = x
  · simp [h]
  · simp [h, State.getV_setV_other]

@[simp] theorem State.getRpl_setRpl_same (s : State) (x : Nibble) (b : Byte) : (s.setRpl x b).getRpl x = b := by
  simp [State.getRpl, State.setRpl]

theorem State.getRpl_setRpl_other (s : State) {x r : Nibble} (b : Byte) (h : r ≠ x) :
    (s.setRpl x b).getRpl r = s.getRpl r := by
  have : x.toNat ≠ r.toNat := fun e => h (BitVec.eq_of_toNat_eq e.symm)
  simp [State.getRpl, State.setRpl, this]

/-- A result and a flag: VF reads the flag, the result register the result unless it is VF (R173). -/
theorem State.getV_setResultAndFlag (s : State) (x r : Nibble) (b f : Byte) :
    (s.setResultAndFlag x b f).getV r = if r = vf then f else if r = x then b else s.getV r := by
  unfold State.setResultAndFlag
  rw [State.getV_setV, State.getV_setV]

/-! ## Register prefixes -/

theorem State.firstRegs_length (s : State) (x : Nibble) : (s.firstRegs x).length = x.toNat + 1 := by
  have := x.isLt
  simp [State.firstRegs]; omega

/-- Entry `k` of the stored list is `V[k]` (R195). -/
theorem State.firstRegs_getD (s : State) (x k : Nibble) (h : k.toNat ≤ x.toNat) :
    (s.firstRegs x).getD k.toNat 0 = s.getV k := by
  have hk : k.toNat < 16 := k.isLt
  simp [State.firstRegs, State.getV, List.getD_eq_getElem?_getD, Nat.lt_succ_of_le h, hk]

/-- Register `r` after a list is loaded (R196). -/
theorem getV_loadList (s : State) (bs : List Byte) (r : Nibble) :
    ({ s with v := s.v.loadList bs } : State).getV r = bs.getD r.toNat (s.getV r) := by
  simp [State.getV, RegFile.loadList]

/-- Register `r` after a prefix of another file is copied over `V` (R198). -/
theorem getV_copyFirst (s : State) (src : RegFile) (x r : Nibble) :
    ({ s with v := s.v.copyFirst src x } : State).getV r =
      if r.toNat ≤ x.toNat then src[r.toNat]'r.isLt else s.getV r := by
  simp [State.getV, RegFile.copyFirst]

/-- RPL register `r` after a prefix of another file is copied over it (R197). -/
theorem getRpl_copyFirst (s : State) (src : RegFile) (x r : Nibble) :
    ({ s with rpl := s.rpl.copyFirst src x } : State).getRpl r =
      if r.toNat ≤ x.toNat then src[r.toNat]'r.isLt else s.getRpl r := by
  simp [State.getRpl, RegFile.copyFirst]

/-! ## Flags and differences -/

theorem flag_eq_one (c : Bool) : flag c = 1 ↔ c = true := by cases c <;> simp [flag]

theorem carryFlag_eq (a b : Byte) : carryFlag a b = if 255 < a.toNat + b.toNat then 1 else 0 := by
  by_cases h : 255 < a.toNat + b.toNat <;> simp [carryFlag, flag, h]

theorem greaterFlag_eq (a b : Byte) : greaterFlag a b = if b.toNat < a.toNat then 1 else 0 := by
  by_cases h : b.toNat < a.toNat <;> simp [greaterFlag, flag, h]

/-- The stored difference, as a number (R168). -/
theorem difference_toNat (a b : Byte) : (difference a b).toNat = (256 + a.toNat - b.toNat) % 256 := by
  have := a.isLt
  have := b.isLt
  unfold difference
  split
  · rw [BitVec.toNat_ofNat]; omega
  · rw [BitVec.toNat_ofNat]

/-- The stored difference is the wrapped one (R168, "equivalently"). -/
theorem difference_eq_sub (a b : Byte) : difference a b = a - b := by
  apply BitVec.eq_of_toNat_eq
  have := a.isLt
  have := b.isLt
  rw [difference_toNat, BitVec.toNat_sub]
  omega

end Sys2Proof.Machine
end

