-- ==== Sys2Proof/Laws/Display.lean ====
section
/-! SUPPORT. What the framebuffer operations do: pixels of a tabulated grid, of a cleared grid and of a blit, and the
grid's size (R36, R240 to R243). -/

namespace Sys2Proof.Machine

/-- A grid has the size of a mode. -/
def Framebuffer.Sized (m : Mode) (g : Framebuffer) : Prop := g.length = m.height ∧ ∀ row ∈ g, row.length = m.width

/-- How far a coordinate is past the origin on a toroidal axis of the given size. -/
def toroidalOffset (origin size coord : Nat) : Nat := (coord + (size - origin % size)) % size

/-- The sprite has a 1 bit at pixel `(x, y)`: in the row and column the pixel's toroidal offsets name (R240 to R242). -/
def spriteCovers (m : Mode) (px py rows cols : Nat) (row : Nat → Nat) (x y : Nat) : Bool :=
  decide (toroidalOffset px m.width x < cols) && decide (toroidalOffset py m.height y < rows) &&
    (row (toroidalOffset py m.height y)).testBit (cols - 1 - toroidalOffset px m.width x)

/-! ## Pixels -/

theorem Framebuffer.pixel_tabulate (m : Mode) (f : Nat → Nat → Bool) {x y : Nat} (h : OnScreen m x y) :
    (Framebuffer.tabulate m f).pixel x y = f x y := by
  obtain ⟨hx, hy⟩ := h
  simp [Framebuffer.tabulate, Framebuffer.pixel, List.getD_eq_getElem?_getD, hx, hy]

theorem Framebuffer.sized_tabulate (m : Mode) (f : Nat → Nat → Bool) : (Framebuffer.tabulate m f).Sized m := by
  refine ⟨by simp [Framebuffer.tabulate], fun row hrow => ?_⟩
  obtain ⟨y, -, rfl⟩ := List.mem_map.mp hrow
  simp

theorem Framebuffer.sized_blank (m : Mode) : (Framebuffer.blank m).Sized m := by
  refine ⟨by simp [Framebuffer.blank], fun row hrow => ?_⟩
  rw [List.eq_of_mem_replicate hrow]; simp

theorem Framebuffer.pixel_blank (m : Mode) (x y : Nat) : (Framebuffer.blank m).pixel x y = false := by
  simp only [Framebuffer.pixel, Framebuffer.blank, List.getD_eq_getElem?_getD, List.getElem?_replicate]
  split
  · simp only [Option.getD_some, List.getElem?_replicate]; split <;> rfl
  · rfl

/-- Two grids of a mode's size with the same pixels are equal. -/
theorem Framebuffer.eq_of_pixel_eq {m : Mode} {g g' : Framebuffer} (hg : g.Sized m) (hg' : g'.Sized m)
    (h : ∀ x y, OnScreen m x y → g.pixel x y = g'.pixel x y) : g = g' := by
  apply List.ext_getElem (by rw [hg.1, hg'.1])
  intro y hy hy'
  have hr := hg.2 _ (List.getElem_mem hy)
  have hr' := hg'.2 _ (List.getElem_mem hy')
  apply List.ext_getElem (by rw [hr, hr'])
  intro x hx hx'
  have := h x y ⟨by omega, by rw [← hg.1]; exact hy⟩
  simpa [Framebuffer.pixel, List.getD_eq_getElem?_getD, hy, hy', hx, hx'] using this

theorem Framebuffer.sized_setPixel {m : Mode} {g : Framebuffer} (hg : g.Sized m) (x y : Nat) (b : Bool) :
    (g.setPixel x y b).Sized m := by
  refine ⟨by simp [Framebuffer.setPixel, hg.1], fun row hrow => ?_⟩
  obtain ⟨k, hk, rfl⟩ := List.getElem_of_mem hrow
  simp only [Framebuffer.setPixel, List.length_modify] at hk
  simp only [Framebuffer.setPixel, List.getElem_modify]
  split
  · simp [hg.2 _ (List.getElem_mem hk)]
  · exact hg.2 _ (List.getElem_mem hk)

theorem Framebuffer.pixel_setPixel {m : Mode} {g : Framebuffer} (hg : g.Sized m) {x y : Nat} (b : Bool)
    (h : OnScreen m x y) (x' y' : Nat) :
    (g.setPixel x y b).pixel x' y' = if x' = x ∧ y' = y then b else g.pixel x' y' := by
  obtain ⟨hx, hy⟩ := h
  rw [← hg.1] at hy
  have hr := hg.2 _ (List.getElem_mem hy)
  by_cases h1 : y' = y
  · subst h1
    by_cases h2 : x' = x
    · subst h2
      simp [Framebuffer.pixel, Framebuffer.setPixel, List.getD_eq_getElem?_getD, hy, hr, hx]
    · have h3 : x ≠ x' := fun e => h2 e.symm
      simp [Framebuffer.pixel, Framebuffer.setPixel, List.getD_eq_getElem?_getD, hy, h2, h3]
  · have h3 : y ≠ y' := fun e => h1 e.symm
    simp [Framebuffer.pixel, Framebuffer.setPixel, List.getD_eq_getElem?_getD, h1, h3]

/-! ## The blit -/

/-- Where a sprite offset lands (R240). -/
def landing (m : Mode) (px py : Nat) (rc : Nat × Nat) : Nat × Nat := ((px + rc.2) % m.width, (py + rc.1) % m.height)

theorem Mode.width_pos (m : Mode) : 0 < m.width := by cases m <;> decide

theorem Mode.height_pos (m : Mode) : 0 < m.height := by cases m <;> decide

theorem landing_onScreen (m : Mode) (px py : Nat) (rc : Nat × Nat) :
    OnScreen m (landing m px py rc).1 (landing m px py rc).2 :=
  ⟨Nat.mod_lt _ m.width_pos, Nat.mod_lt _ m.height_pos⟩

theorem blitPixel_eq (m : Mode) (px py cols : Nat) (data : List Nat) (g : Framebuffer × Bool) (rc : Nat × Nat) :
    blitPixel m px py cols data g rc =
      (g.1.setPixel (landing m px py rc).1 (landing m px py rc).2
          (g.1.pixel (landing m px py rc).1 (landing m px py rc).2 ^^ spriteBit data cols rc.1 rc.2),
        g.2 || (g.1.pixel (landing m px py rc).1 (landing m px py rc).2 && spriteBit data cols rc.1 rc.2)) := rfl

/-- The blit over any offsets that land apart: each pixel is XORed with the sprite bit that lands on it, if any, and
the collision flag says whether a lit pixel met a 1 bit. -/
theorem blit_offsets (m : Mode) (px py cols : Nat) (data : List Nat) (l : List (Nat × Nat))
    (hl : l.Pairwise fun a b => landing m px py a ≠ landing m px py b) (g : Framebuffer) (b : Bool) (hg : g.Sized m) :
    (l.foldl (blitPixel m px py cols data) (g, b)).1.Sized m ∧
    (∀ x y, (l.foldl (blitPixel m px py cols data) (g, b)).1.pixel x y =
      (g.pixel x y ^^ l.any fun rc => landing m px py rc == (x, y) && spriteBit data cols rc.1 rc.2)) ∧
    (l.foldl (blitPixel m px py cols data) (g, b)).2 =
      (b || l.any fun rc =>
        g.pixel (landing m px py rc).1 (landing m px py rc).2 && spriteBit data cols rc.1 rc.2) := by
  induction l generalizing g b with
  | nil => simp [hg]
  | cons rc l ih =>
    obtain ⟨hrc, hl'⟩ := List.pairwise_cons.mp hl
    have hon := landing_onScreen m px py rc
    rw [List.foldl_cons, blitPixel_eq]
    obtain ⟨h1, h2, h3⟩ := ih hl' _ (b || (g.pixel (landing m px py rc).1 (landing m px py rc).2 &&
      spriteBit data cols rc.1 rc.2)) (Framebuffer.sized_setPixel hg (landing m px py rc).1 (landing m px py rc).2
        (g.pixel (landing m px py rc).1 (landing m px py rc).2 ^^ spriteBit data cols rc.1 rc.2))
    refine ⟨h1, fun x y => ?_, ?_⟩
    · rw [h2, Framebuffer.pixel_setPixel hg _ hon, List.any_cons]
      by_cases hxy : landing m px py rc = (x, y)
      · have hnone : (l.any fun rc' => landing m px py rc' == (x, y) && spriteBit data cols rc'.1 rc'.2) = false := by
          rw [List.any_eq_false]
          intro rc' hmem
          have : landing m px py rc' ≠ (x, y) := fun e => hrc rc' hmem (hxy.trans e.symm)
          simp [this]
        simp [hxy, hnone]
      · have : ¬ (x = (landing m px py rc).1 ∧ y = (landing m px py rc).2) := fun e => hxy (by rw [e.1, e.2])
        simp [hxy, this]
    · rw [h3, List.any_cons, Bool.or_assoc]
      congr 2
      rw [Bool.eq_iff_iff, List.any_eq_true, List.any_eq_true]
      refine exists_congr fun rc' => and_congr_right fun hmem => ?_
      rw [Framebuffer.pixel_setPixel hg _ hon, if_neg]
      exact fun e => hrc rc' hmem (Prod.ext e.1.symm e.2.symm)

/-! ## The offsets of a sprite -/

/-- The offset that lands on a coordinate is the toroidal one. -/
theorem mod_width_eq_iff (m : Mode) (px : Nat) {c x : Nat} (hc : c < m.width) (hx : x < m.width) :
    (px + c) % m.width = x ↔ c = toroidalOffset px m.width x := by
  cases m <;> simp only [Mode.width, toroidalOffset] at * <;> omega

theorem mod_height_eq_iff (m : Mode) (py : Nat) {r y : Nat} (hr : r < m.height) (hy : y < m.height) :
    (py + r) % m.height = y ↔ r = toroidalOffset py m.height y := by
  cases m <;> simp only [Mode.height, toroidalOffset] at * <;> omega

theorem toroidalOffset_lt (origin coord : Nat) {size : Nat} (h : 0 < size) : toroidalOffset origin size coord < size :=
  Nat.mod_lt _ h

theorem mem_spriteOffsets {rows cols : Nat} {rc : Nat × Nat} :
    rc ∈ spriteOffsets rows cols ↔ rc.1 < rows ∧ rc.2 < cols := by
  obtain ⟨r, c⟩ := rc
  simp [spriteOffsets]

theorem nodup_spriteOffsets (rows cols : Nat) : (spriteOffsets rows cols).Nodup := by
  unfold spriteOffsets
  rw [List.nodup_flatMap]
  refine ⟨fun r _ => (List.nodup_range).map fun a b h => by simpa using h, ?_⟩
  apply List.Pairwise.imp _ (List.nodup_range (n := rows))
  intro a b hab x hx hy
  simp only [List.mem_map] at hx hy
  obtain ⟨_, _, rfl⟩ := hx
  obtain ⟨_, _, h⟩ := hy
  exact hab (by simpa using (congrArg Prod.fst h).symm)

/-- No pixel is visited twice in one draw (R251). -/
theorem spriteOffsets_land_apart (m : Mode) (px py : Nat) {rows cols : Nat} (hr : rows ≤ m.height)
    (hc : cols ≤ m.width) :
    (spriteOffsets rows cols).Pairwise fun a b => landing m px py a ≠ landing m px py b := by
  apply List.Pairwise.imp_of_mem _ (nodup_spriteOffsets rows cols)
  intro a b ha hb hab hland
  rw [mem_spriteOffsets] at ha hb
  apply hab
  have h1 := congrArg Prod.fst hland
  have h2 := congrArg Prod.snd hland
  simp only [landing] at h1 h2
  have hx := (mod_width_eq_iff m px (by omega) (Nat.mod_lt _ m.width_pos)).mp h1
  have hx' := (mod_width_eq_iff m px (c := b.2) (by omega) (Nat.mod_lt _ m.width_pos)).mp rfl
  have hy := (mod_height_eq_iff m py (by omega) (Nat.mod_lt _ m.height_pos)).mp h2
  have hy' := (mod_height_eq_iff m py (r := b.1) (by omega) (Nat.mod_lt _ m.height_pos)).mp rfl
  exact Prod.ext (hy.trans hy'.symm) (hx.trans hx'.symm)

/-- Some offset with a 1 bit lands on a pixel exactly when the sprite covers it. -/
theorem any_landing_eq_spriteCovers (m : Mode) (px py : Nat) {rows cols : Nat} (data : List Nat)
    (hr : rows ≤ m.height) (hc : cols ≤ m.width) {x y : Nat} (hxy : OnScreen m x y) :
    ((spriteOffsets rows cols).any fun rc => landing m px py rc == (x, y) && spriteBit data cols rc.1 rc.2) =
      spriteCovers m px py rows cols (fun r => data.getD r 0) x y := by
  rw [Bool.eq_iff_iff, List.any_eq_true]
  simp only [Bool.and_eq_true, beq_iff_eq, spriteCovers, decide_eq_true_eq, spriteBit]
  constructor
  · rintro ⟨⟨r, c⟩, hmem, hland, hbit⟩
    rw [mem_spriteOffsets] at hmem
    have h1 := (mod_width_eq_iff m px (by simp only at hmem; omega) hxy.1).mp (congrArg Prod.fst hland)
    have h2 := (mod_height_eq_iff m py (by simp only at hmem; omega) hxy.2).mp (congrArg Prod.snd hland)
    simp only at h1 h2 hmem hbit
    rw [← h1, ← h2]
    exact ⟨⟨hmem.2, hmem.1⟩, hbit⟩
  · rintro ⟨⟨h1, h2⟩, hbit⟩
    refine ⟨(toroidalOffset py m.height y, toroidalOffset px m.width x), mem_spriteOffsets.mpr ⟨h2, h1⟩, ?_, hbit⟩
    exact Prod.ext ((mod_width_eq_iff m px (by omega) hxy.1).mpr rfl)
      ((mod_height_eq_iff m py (by omega) hxy.2).mpr rfl)

/-- The blit, in closed form: size kept, every pixel XORed with the sprite that covers it, and the collision flag set
exactly when a lit pixel is covered (R240, R243). -/
theorem blit_spec (m : Mode) (px py : Nat) {rows cols : Nat} (data : List Nat) (g : Framebuffer)
    (hr : rows ≤ m.height) (hc : cols ≤ m.width) (hg : g.Sized m) :
    (blit m px py rows cols data g).1.Sized m ∧
    (∀ x y, OnScreen m x y → (blit m px py rows cols data g).1.pixel x y =
      (g.pixel x y ^^ spriteCovers m px py rows cols (fun r => data.getD r 0) x y)) ∧
    ((blit m px py rows cols data g).2 = true ↔
      ∃ x y, OnScreen m x y ∧ g.pixel x y = true ∧
        spriteCovers m px py rows cols (fun r => data.getD r 0) x y = true) := by
  obtain ⟨h1, h2, h3⟩ := blit_offsets m px py cols data _ (spriteOffsets_land_apart m px py hr hc) g false hg
  refine ⟨h1, fun x y hxy => ?_, ?_⟩
  · rw [blit, h2, any_landing_eq_spriteCovers m px py data hr hc hxy]
  · rw [blit, h3, Bool.false_or, List.any_eq_true]
    constructor
    · rintro ⟨rc, hmem, hrc⟩
      rw [Bool.and_eq_true] at hrc
      refine ⟨_, _, landing_onScreen m px py rc, hrc.1, ?_⟩
      rw [← any_landing_eq_spriteCovers m px py data hr hc (landing_onScreen m px py rc), List.any_eq_true]
      exact ⟨rc, hmem, by simp [hrc.2]⟩
    · rintro ⟨x, y, hxy, hpix, hcov⟩
      rw [← any_landing_eq_spriteCovers m px py data hr hc hxy, List.any_eq_true] at hcov
      obtain ⟨rc, hmem, hrc⟩ := hcov
      rw [Bool.and_eq_true, beq_iff_eq] at hrc
      exact ⟨rc, hmem, by rw [hrc.1, hpix, hrc.2]; rfl⟩

/-- The blit, offset by offset: the pixel an offset lands on is XORed with its bit, every other pixel is kept, and
the collision flag says whether a lit pixel met a 1 bit (R240, R243). -/
theorem blit_at_offsets (m : Mode) (px py : Nat) {rows cols : Nat} (data : List Nat) (g : Framebuffer)
    (hr : rows ≤ m.height) (hc : cols ≤ m.width) (hg : g.Sized m) :
    (∀ r c, r < rows → c < cols →
      (blit m px py rows cols data g).1.pixel ((px + c) % m.width) ((py + r) % m.height) =
        (g.pixel ((px + c) % m.width) ((py + r) % m.height) ^^ spriteBit data cols r c)) ∧
    (∀ x y, (∀ r c, r < rows → c < cols → ¬ ((px + c) % m.width = x ∧ (py + r) % m.height = y)) →
      (blit m px py rows cols data g).1.pixel x y = g.pixel x y) ∧
    ((blit m px py rows cols data g).2 = true ↔ ∃ r c, r < rows ∧ c < cols ∧
      g.pixel ((px + c) % m.width) ((py + r) % m.height) = true ∧ spriteBit data cols r c = true) := by
  have hapart := spriteOffsets_land_apart m px py hr hc
  obtain ⟨-, h2, h3⟩ := blit_offsets m px py cols data _ hapart g false hg
  refine ⟨fun r c hr' hc' => ?_, fun x y hxy => ?_, ?_⟩
  · rw [blit, h2]
    congr 1
    rw [Bool.eq_iff_iff, List.any_eq_true]
    constructor
    · rintro ⟨⟨r', c'⟩, hmem, h⟩
      rw [Bool.and_eq_true, beq_iff_eq] at h
      rw [mem_spriteOffsets] at hmem
      simp only at hmem
      have hx := congrArg Prod.fst h.1
      have hy := congrArg Prod.snd h.1
      simp only [landing] at hx hy
      have e1 := (mod_width_eq_iff m px (by omega) (Nat.mod_lt _ m.width_pos)).mp hx
      have e2 := (mod_width_eq_iff m px (c := c) (by omega) (Nat.mod_lt _ m.width_pos)).mp rfl
      have e3 := (mod_height_eq_iff m py (by omega) (Nat.mod_lt _ m.height_pos)).mp hy
      have e4 := (mod_height_eq_iff m py (r := r) (by omega) (Nat.mod_lt _ m.height_pos)).mp rfl
      rw [e2, e4, ← e1, ← e3]
      exact h.2
    · intro h
      exact ⟨(r, c), mem_spriteOffsets.mpr ⟨hr', hc'⟩, by simp [landing, h]⟩
  · rw [blit, h2]
    have : ((spriteOffsets rows cols).any fun rc =>
        landing m px py rc == (x, y) && spriteBit data cols rc.1 rc.2) = false := by
      rw [List.any_eq_false]
      intro rc hmem
      rw [mem_spriteOffsets] at hmem
      have : landing m px py rc ≠ (x, y) := fun e =>
        hxy rc.1 rc.2 hmem.1 hmem.2 ⟨congrArg Prod.fst e, congrArg Prod.snd e⟩
      simp [this]
    rw [this, Bool.xor_false]
  · rw [blit, h3, Bool.false_or, List.any_eq_true]
    constructor
    · rintro ⟨rc, hmem, h⟩
      rw [Bool.and_eq_true] at h
      rw [mem_spriteOffsets] at hmem
      exact ⟨rc.1, rc.2, hmem.1, hmem.2, h.1, h.2⟩
    · rintro ⟨r, c, hr', hc', h⟩
      exact ⟨(r, c), mem_spriteOffsets.mpr ⟨hr', hc'⟩, by simp [landing, h]⟩

/-! ## The rows of a sprite -/

theorem spriteRows8_getD (m : Memory) (a n : Nat) {r : Nat} (h : r < n) :
    (spriteRows8 ((List.range n).map fun k => m.read (a + k))).getD r 0 = memRow8 m a r := by
  simp [spriteRows8, memRow8, List.getD_eq_getElem?_getD, h]

theorem spriteRows16_getD (m : Memory) (a : Nat) {r : Nat} (h : r < 16) :
    (spriteRows16 ((List.range 32).map fun k => m.read (a + k))).getD r 0 = memRow16 m a r := by
  have key (b c : Byte) : (b.toNat <<< 8 ||| c.toNat) = b.toNat * 256 + c.toNat := by
    rw [← Nat.shiftLeft_add_eq_or_of_lt c.isLt, Nat.shiftLeft_eq]
  have hlist : (List.range 32) = [0,1,2,3,4,5,6,7,8,9,10,11,12,13,14,15,16,17,18,19,20,21,22,23,24,25,26,27,28,29,30,31] := by
    decide
  rw [hlist]
  simp only [List.map, spriteRows16, key, memRow16]
  interval_cases r <;> rfl

end Sys2Proof.Machine
end

