-- ==== Sys2Proof/Laws/Step.lean ====
section
/-! SUPPORT. What the shared operations of the step can do: an effect that may raise, fetch, the end of a step, the
stop states, and a word placed for the next step (R118 to R128). -/

namespace Sys2Proof.Machine

/-! ## Effects that may raise -/

@[simp] theorem orRaise_ok (s t : State) : orRaise s (.ok t) = .next t := rfl

@[simp] theorem orRaise_error (s : State) (e : Fault) : orRaise s (.error e) = .next (s.raise e) := rfl

/-- An effect that may raise always answers a next state: its own, or the state before it with the error latched. -/
theorem orRaise_cases {s t : State} {r : Except Fault State} (h : orRaise s r = .next t) :
    r = .ok t ∨ ∃ e, r = .error e ∧ t = s.raise e := by
  cases r with
  | ok u => cases h; exact .inl rfl
  | error e => cases h; exact .inr ⟨e, rfl, rfl⟩

theorem orRaise_isNext (s : State) (r : Except Fault State) : ∃ t, orRaise s r = .next t := by
  cases r with
  | ok u => exact ⟨u, rfl⟩
  | error e => exact ⟨s.raise e, rfl⟩

/-! ## Fetch -/

/-- Fetch reads the big-endian word at `pc` and fails only at 0xFFF (R61, R119). -/
theorem State.fetch_eq (s : State) :
    s.fetch = if s.pc = 0xFFF then .error (.addressError 0xFFF 2)
      else .ok (wordOfBytes (s.mem.read s.pc.toNat) (s.mem.read (s.pc.toNat + 1))) := by
  have := s.pc.isLt
  unfold State.fetch
  rw [Memory.read16_eq]
  by_cases h : s.pc = 0xFFF
  · simp [h, InMemory]
  · have hne : s.pc.toNat ≠ 0xFFF := fun e => h (BitVec.eq_of_toNat_eq e)
    rw [if_pos (show InMemory s.pc.toNat 2 by simp only [InMemory]; omega), if_neg h]
    rfl

/-! ## The step -/

theorem step_pending {s : State} {t : Transaction} {ts : List Transaction} (h : s.pending = t :: ts) :
    step s = perform t { s with pending := ts } := by
  simp only [step, nextTransaction, h]

theorem step_empty {s : State} (h : s.pending = []) : step s = stepTransaction none none none s := by
  simp only [step, nextTransaction, h, perform]

/-- Issued or not, a `step` that is next is performed on the state without it (R113, R126). -/
theorem step_nextIsStep {s : State} {o k : Option Word} {b : Option Byte} {ts : List Transaction}
    (h : s.NextIsStep o k b ts) : step s = stepTransaction o k b { s with pending := ts } := by
  rcases h with h | ⟨h, rfl, rfl, rfl, rfl⟩
  · exact step_pending h
  · rw [step_empty h, ← h]

theorem State.stopStatus_running {s : State} (h : s.Running) : s.stopStatus = none := by
  obtain ⟨h1, h2, h3⟩ := h
  simp [State.stopStatus, h1, h2, h3]

theorem State.stopStatus_eq_none {s : State} (h : s.stopStatus = none) : s.Running := by
  unfold State.stopStatus at h
  unfold State.Running
  cases hf : s.fault <;> cases hr : s.running <;> cases ha : s.await <;> simp_all

@[simp] theorem State.sample_stopStatus (s : State) (k : Option Word) (b : Option Byte) :
    (s.sample k b).stopStatus = s.stopStatus := rfl

@[simp] theorem State.sample_fetch (s : State) (k : Option Word) (b : Option Byte) :
    (s.sample k b).fetch = s.fetch := rfl

/-- In a stop state a step answers its status and leaves the tuple of R20 alone (R125, R127, R128). -/
theorem stepTransaction_stopped {s : State} {st : Status} (h : s.stopStatus = some st) (o k : Option Word)
    (b : Option Byte) : stepTransaction o k b s = .next ((s.sample k b).respond (.stepped st none)) := by
  simp [stepTransaction, h]

theorem stepTransaction_running {s : State} (h : s.Running) (o k : Option Word) (b : Option Byte) :
    stepTransaction o k b s = runStep (s.sample k b) o := by
  simp [stepTransaction, State.stopStatus_running h]

theorem runStep_injected (s0 : State) (w : Word) : runStep s0 (some w) = runWord s0 s0 w := rfl

theorem runStep_fetched {s0 : State} (h : s0.pc ≠ 0xFFF) :
    runStep s0 none =
      runWord s0 s0.advance (wordOfBytes (s0.mem.read s0.pc.toNat) (s0.mem.read (s0.pc.toNat + 1))) := by
  simp only [runStep, State.fetch_eq, if_neg h]

theorem runStep_fetchFault {s0 : State} (h : s0.pc = 0xFFF) :
    runStep s0 none = .next (s0.fail (.addressError 0xFFF 2)) := by
  simp only [runStep, State.fetch_eq, if_pos h]

theorem runWord_ok {w : Word} {i : Instr} (h : decodeWord w = .ok i) (s0 s1 : State) :
    runWord s0 s1 w = finishStep s0 w (exec i s1) := by
  simp only [runWord, h]

theorem runWord_error {w : Word} {r : Reject} (h : decodeWord w = .error r) (s0 s1 : State) :
    runWord s0 s1 w = .next (s0.fail (.unknownOpcode w)) := by
  simp only [runWord, h]

/-- The end of a step whose instruction raised nothing. -/
theorem finishStep_done {t : State} (h : t.fault = none) (s0 : State) (w : Word) :
    finishStep s0 w (.next t) = .next (t.respond (.stepped t.doneStatus (some w))) := by
  simp only [finishStep, h]

/-- The end of a step whose instruction raised: the state before the step, with the error (R123, R125). -/
theorem finishStep_raised {t : State} {e : Fault} (h : t.fault = some e) (s0 : State) (w : Word) :
    finishStep s0 w (.next t) = .next (s0.fail e) := by
  simp only [finishStep, h]

/-- Every instruction answers a next state: no instruction of this hardware stops the machine. -/
theorem exec_isNext (i : Instr) (s : State) : ∃ t, exec i s = .next t := by
  cases i <;> first
    | exact ⟨_, rfl⟩
    | exact orRaise_isNext _ _

/-! ## A word placed for the next step -/

theorem State.ready_pc_ne (s : State) : s.ready.pc ≠ 0xFFF := by
  show (if s.pc = 0xFFF then BitVec.ofNat 12 Config.programStart else s.pc) ≠ 0xFFF
  split
  · decide
  · assumption

/-- Decoding a table word is decoding the word it numbers. -/
theorem decodeTableWord_eq (nbits w : Nat) :
    decodeTableWord nbits w = match decodeWord (BitVec.ofNat 16 (w % 2 ^ nbits)) with
      | .ok i => some i
      | .error _ => none := by
  have h := decode_bytesOfWord (BitVec.ofNat 16 (w % 2 ^ nbits)) []
  rw [List.append_nil] at h
  unfold decodeTableWord tableBytes
  rw [h]
  cases decodeWord (BitVec.ofNat 16 (w % 2 ^ nbits)) <;> rfl

/-- After `withFetchWord` the next step is ready to run, and fetches exactly the word placed. -/
theorem State.withFetchWord_fetch (s : State) (nbits w : Nat) :
    (s.withFetchWord nbits w).Ready ∧
    (s.withFetchWord nbits w).pc ≠ 0xFFF ∧
    (s.withFetchWord nbits w).fetch = .ok (BitVec.ofNat 16 (w % 2 ^ nbits)) := by
  have hpc : (s.withFetchWord nbits w).pc ≠ 0xFFF := s.ready_pc_ne
  refine ⟨⟨rfl, rfl, rfl, rfl⟩, hpc, ?_⟩
  rw [State.fetch_eq, if_neg hpc]
  have hb : ∀ k, (s.withFetchWord nbits w).mem.read k =
      (s.ready.mem.putAll s.ready.pc.toNat (tableBytes nbits w)).read k := fun _ => rfl
  have hp : (s.withFetchWord nbits w).pc = s.ready.pc := rfl
  rw [hb, hb, hp, Memory.read_putAll, Memory.read_putAll, if_pos (by simp [tableBytes, bytesOfWord]),
    if_pos (by simp [tableBytes, bytesOfWord])]
  congr 1
  apply BitVec.eq_of_toNat_eq
  have := (BitVec.ofNat 16 (w % 2 ^ nbits)).isLt
  rw [wordOfBytes_toNat]
  simp only [tableBytes, bytesOfWord, Nat.sub_self, List.getD_cons_zero, Nat.add_sub_cancel_left,
    List.getD_cons_succ, BitVec.extractLsb'_toNat, Nat.shiftRight_eq_div_pow]
  omega

end Sys2Proof.Machine
end

