-- ==== Sys2Proof/Laws/Meanings.lean ====
section
/-! SUPPORT. The seven meanings that may raise, each as one case distinction on its operands (R141, R145, R194 to R196,
R251), and the two states a sprite draw leads to. The other meanings are one expression each. -/

namespace Sys2Proof

/-- `STACK_END <= 0x1000` (R10), from its type. -/
theorem Params.stackEnd_le (p : Params) : p.stackEnd ≤ 4096 := by
  have := p.stackRoom.isLt
  simp only [Params.stackEnd, Config.stackBase]
  omega

/-- `STACK_BASE + 2 <= STACK_END` (R10), from its type. -/
theorem Params.le_stackEnd (p : Params) : 0x054 ≤ p.stackEnd := by
  simp only [Params.stackEnd, Config.stackBase]
  omega

namespace Machine

/-- Two bytes joined by shift and or, as a number. -/
theorem joinBytes_eq (hi lo : Byte) : hi.toNat <<< 8 ||| lo.toNat = hi.toNat * 256 + lo.toNat := by
  rw [← Nat.shiftLeft_add_eq_or_of_lt lo.isLt, Nat.shiftLeft_eq]

/-- RET, where `sp` is at most the end of memory, as R43 says it is (R141). -/
theorem execRet_eq {s : State} (h : s.sp.toNat ≤ 4096) :
    execRet s =
      if s.sp.toNat < 0x054 then .next (s.raise (.addressError (s.sp.toNat - 2) 2))
      else .next { s.setPc ((s.mem.read (s.sp.toNat - 1)).toNat * 256 + (s.mem.read (s.sp.toNat - 2)).toNat) with
        sp := s.sp - 2 } := by
  unfold execRet
  by_cases hlt : s.sp.toNat < 0x054
  · rw [if_pos (show s.sp.toNat < Config.stackBase + 2 from hlt), if_pos hlt]
    rfl
  · rw [if_neg (show ¬ s.sp.toNat < Config.stackBase + 2 from hlt), if_neg hlt]
    have h1 : InMemory (s.sp.toNat - 2) 1 := by simp only [InMemory]; omega
    have h2 : InMemory (s.sp.toNat - 2 + 1) 1 := by simp only [InMemory]; omega
    simp only [State.popAddr, Memory.read8_eq, h1, h2, ← joinBytes_eq]
    rw [show s.sp.toNat - 2 + 1 = s.sp.toNat - 1 by omega]
    rfl

/-- CALL (R145). -/
theorem execCall_eq (nnn : Addr) (s : State) :
    execCall nnn s =
      if s.params.stackEnd < s.sp.toNat + 2 then .next (s.raise (.addressError s.sp.toNat 2))
      else .next { s.setPc nnn.toNat with
        mem := (s.mem.put s.pushAddr (BitVec.ofNat 8 (s.pc.toNat % 256))).put (s.pushAddr + 1)
          (BitVec.ofNat 8 (s.pc.toNat / 256))
        sp := s.sp + 1 + 1 } := by
  have := s.params.stackEnd_le
  unfold execCall
  by_cases hlt : s.params.stackEnd < s.sp.toNat + 2
  · rw [if_pos hlt, if_pos hlt]
    rfl
  · rw [if_neg hlt, if_neg hlt]
    have h1 : InMemory s.pushAddr 1 := by simp only [InMemory, State.pushAddr]; omega
    have h2 : InMemory (s.pushAddr + 1) 1 := by simp only [InMemory, State.pushAddr]; omega
    have e1 : s.pc.toNat &&& 0xFF = s.pc.toNat % 256 := Nat.and_two_pow_sub_one_eq_mod s.pc.toNat 8
    have e2 : s.pc.toNat >>> 8 = s.pc.toNat / 256 := Nat.shiftRight_eq_div_pow s.pc.toNat 8
    simp only [Memory.write8_eq, h1, h2, e1, e2]
    rfl

/-- LD B, Vx (R194). -/
theorem execLdBV_eq (x : Nibble) (s : State) :
    execLdBV x s =
      if InMemory s.indexAddr 3 then .next { s with mem := s.mem.putAll s.indexAddr (bcdDigits (s.getV x)) }
      else .next (s.raise (.addressError s.indexAddr 3)) := by
  unfold execLdBV
  rw [Memory.writeBlock_eq, show (bcdDigits (s.getV x)).length = 3 from rfl]
  by_cases h : InMemory s.indexAddr 3
  · rw [if_pos (.inr h), if_pos h]
    rfl
  · rw [if_neg (by simpa using h), if_neg h]
    rfl

/-- LD [I], Vx (R195). -/
theorem execLdMemV_eq (x : Nibble) (s : State) :
    execLdMemV x s =
      if InMemory s.indexAddr (x.toNat + 1) then .next { s with mem := s.mem.putAll s.indexAddr (s.firstRegs x) }
      else .next (s.raise (.addressError s.indexAddr (x.toNat + 1))) := by
  unfold execLdMemV
  rw [Memory.writeBlock_eq, State.firstRegs_length]
  by_cases h : InMemory s.indexAddr (x.toNat + 1)
  · rw [if_pos (.inr h), if_pos h]
    rfl
  · rw [if_neg (by simpa using h), if_neg h]
    rfl

/-- LD Vx, [I] (R196). -/
theorem execLdVMem_eq (x : Nibble) (s : State) :
    execLdVMem x s =
      if InMemory s.indexAddr (x.toNat + 1) then
        .next { s with v := s.v.loadList ((List.range (x.toNat + 1)).map fun k => s.mem.read (s.indexAddr + k)) }
      else .next (s.raise (.addressError s.indexAddr (x.toNat + 1))) := by
  unfold execLdVMem
  rw [Memory.readBlock_eq]
  by_cases h : InMemory s.indexAddr (x.toNat + 1)
  · rw [if_pos (.inr h), if_pos h]
    rfl
  · rw [if_neg (by simpa using h), if_neg h]
    rfl

/-- The state DRW leads to when the sprite's bytes are in memory (R251). -/
def State.drawn (s : State) (x y n : Nibble) : State :=
  if drawsWide s.mode n then
    s.drawSprite x y 16 16 (spriteRows16 ((List.range 32).map fun k => s.mem.read (s.indexAddr + k)))
  else s.drawSprite x y n.toNat 8 (spriteRows8 ((List.range n.toNat).map fun k => s.mem.read (s.indexAddr + k)))

theorem drawsWide_iff (m : Mode) (n : Nibble) : drawsWide m n = true ↔ m = .extended ∧ n = 0 := by
  simp [drawsWide]

/-- DRW (R251). -/
theorem execDrw_eq (x y n : Nibble) (s : State) :
    execDrw x y n s =
      if drwLength s.mode n = 0 ∨ InMemory s.indexAddr (drwLength s.mode n) then .next (s.drawn x y n)
      else .next (s.raise (.addressError s.indexAddr (drwLength s.mode n))) := by
  unfold execDrw State.drawn
  by_cases hw : drawsWide s.mode n = true
  · have hlen : drwLength s.mode n = 32 := by rw [drwLength, if_pos ((drawsWide_iff _ _).mp hw)]
    rw [if_pos hw, if_pos hw, hlen, Memory.readBlock_eq]
    split <;> simp only [bind, Except.bind, pure, Except.pure, orRaise]
  · have hlen : drwLength s.mode n = n.toNat := by rw [drwLength, if_neg (mt (drawsWide_iff _ _).mpr hw)]
    rw [if_neg hw, if_neg hw, hlen, Memory.readBlock_eq]
    split <;> simp only [bind, Except.bind, pure, Except.pure, orRaise]

/-- A draw writes VF with the collision flag and no other general register (R244). -/
theorem State.getV_drawSprite (s : State) (x y : Nibble) (rows cols : Nat) (data : List Nat) (r : Nibble) :
    (s.drawSprite x y rows cols data).getV r =
      if r = vf then
        collisionFlag (blit s.mode (s.getV x).toNat (s.getV y).toNat rows cols data s.fb).2
      else s.getV r := by
  unfold State.drawSprite
  rw [State.getV_setV]
  rfl

/-- The picture after a draw is the blit at the coordinates read before it (R251). -/
theorem State.drawSprite_fb (s : State) (x y : Nibble) (rows cols : Nat) (data : List Nat) :
    (s.drawSprite x y rows cols data).fb =
      (blit s.mode (s.getV x).toNat (s.getV y).toNat rows cols data s.fb).1 := rfl

end Machine

end Sys2Proof
end

