-- ==== Sys2Proof/Laws/PerInstr.lean ====
section
/-! SUPPORT. The family TableRow: the encoder agrees with the match and mask columns of the opcode map (R96), one lemma a
constructor. -/

namespace Sys2Proof.Laws.TableRow

/-- The mask column of R96. -/
def tableMask : Instr → Word
  | .cls | .ret => 0xF0FF
  | .scd _ => 0xF0F0
  | .scr | .scl | .exit | .low | .high => 0xF0FF
  | .sys _ | .jp _ | .call _ | .seImm _ _ | .sneImm _ _ | .seReg _ _ | .ldImm _ _ => 0xF000
  | .addImm _ _ => 0xF000
  | .ldReg _ _ | .or _ _ | .and _ _ | .xor _ _ | .addReg _ _ | .sub _ _ | .shr _ _ => 0xF00F
  | .subn _ _ | .shl _ _ => 0xF00F
  | .sneReg _ _ | .ldI _ | .jpI _ | .rnd _ _ | .drw _ _ _ => 0xF000
  | .skp _ | .sknp _ | .ldVDt _ | .ldVK _ | .ldDtV _ | .ldStV _ | .addIV _ => 0xF0FF
  | .ldFV _ | .ldHfV _ | .ldBV _ | .ldMemV _ | .ldVMem _ | .ldRV _ | .ldVR _ => 0xF0FF

/-- The match column of R96. -/
def tableMatch : Instr → Word
  | .cls => 0x00E0
  | .ret => 0x00EE
  | .scd _ => 0x00C0
  | .scr => 0x00FB
  | .scl => 0x00FC
  | .exit => 0x00FD
  | .low => 0x00FE
  | .high => 0x00FF
  | .sys _ => 0x0000
  | .jp _ => 0x1000
  | .call _ => 0x2000
  | .seImm _ _ => 0x3000
  | .sneImm _ _ => 0x4000
  | .seReg _ _ => 0x5000
  | .ldImm _ _ => 0x6000
  | .addImm _ _ => 0x7000
  | .ldReg _ _ => 0x8000
  | .or _ _ => 0x8001
  | .and _ _ => 0x8002
  | .xor _ _ => 0x8003
  | .addReg _ _ => 0x8004
  | .sub _ _ => 0x8005
  | .shr _ _ => 0x8006
  | .subn _ _ => 0x8007
  | .shl _ _ => 0x800E
  | .sneReg _ _ => 0x9000
  | .ldI _ => 0xA000
  | .jpI _ => 0xB000
  | .rnd _ _ => 0xC000
  | .drw _ _ _ => 0xD000
  | .skp _ => 0xE09E
  | .sknp _ => 0xE0A1
  | .ldVDt _ => 0xF007
  | .ldVK _ => 0xF00A
  | .ldDtV _ => 0xF015
  | .ldStV _ => 0xF018
  | .addIV _ => 0xF01E
  | .ldFV _ => 0xF029
  | .ldHfV _ => 0xF030
  | .ldBV _ => 0xF033
  | .ldMemV _ => 0xF055
  | .ldVMem _ => 0xF065
  | .ldRV _ => 0xF075
  | .ldVR _ => 0xF085

/-- The encoded word has the fixed bits of the instruction's row. -/
def Statement (i : Instr) : Prop := encode i &&& tableMask i = tableMatch i

section Masks

variable (op x y n : Nibble) (nn : Byte) (nnn : Addr)

@[simp] theorem packXnn_and_F000 : packXnn op x nn &&& 0xF000#16 = packXnn op 0 0 := by
  apply BitVec.eq_of_getLsbD_eq
  intro i hi
  simp only [packXnn, BitVec.getLsbD_and, BitVec.getLsbD_append]
  interval_cases i <;> simp

@[simp] theorem packXnn_and_F0FF : packXnn op x nn &&& 0xF0FF#16 = packXnn op 0 nn := by
  apply BitVec.eq_of_getLsbD_eq
  intro i hi
  simp only [packXnn, BitVec.getLsbD_and, BitVec.getLsbD_append]
  interval_cases i <;> simp

@[simp] theorem packNnn_and_F000 : packNnn op nnn &&& 0xF000#16 = packNnn op 0 := by
  apply BitVec.eq_of_getLsbD_eq
  intro i hi
  simp only [packNnn, BitVec.getLsbD_and, BitVec.getLsbD_append]
  interval_cases i <;> simp

@[simp] theorem packXyn_and_F000 : packXyn op x y n &&& 0xF000#16 = packXyn op 0 0 0 := by
  apply BitVec.eq_of_getLsbD_eq
  intro i hi
  simp only [packXyn, BitVec.getLsbD_and, BitVec.getLsbD_append]
  interval_cases i <;> simp

@[simp] theorem packXyn_and_F0F0 : packXyn op x y n &&& 0xF0F0#16 = packXyn op 0 y 0 := by
  apply BitVec.eq_of_getLsbD_eq
  intro i hi
  simp only [packXyn, BitVec.getLsbD_and, BitVec.getLsbD_append]
  interval_cases i <;> simp

@[simp] theorem packXyn_and_F00F : packXyn op x y n &&& 0xF00F#16 = packXyn op 0 0 n := by
  apply BitVec.eq_of_getLsbD_eq
  intro i hi
  simp only [packXyn, BitVec.getLsbD_and, BitVec.getLsbD_append]
  interval_cases i <;> simp

end Masks

theorem cls : Statement (.cls) := by simp [Statement, encode, tableMask, tableMatch]; decide
theorem ret : Statement (.ret) := by simp [Statement, encode, tableMask, tableMatch]; decide
theorem scd (n : Nibble) : Statement (.scd n) := by simp [Statement, encode, tableMask, tableMatch]; decide
theorem scr : Statement (.scr) := by simp [Statement, encode, tableMask, tableMatch]; decide
theorem scl : Statement (.scl) := by simp [Statement, encode, tableMask, tableMatch]; decide
theorem exit : Statement (.exit) := by simp [Statement, encode, tableMask, tableMatch]; decide
theorem low : Statement (.low) := by simp [Statement, encode, tableMask, tableMatch]; decide
theorem high : Statement (.high) := by simp [Statement, encode, tableMask, tableMatch]; decide
theorem sys (nnn : Addr) : Statement (.sys nnn) := by simp [Statement, encode, tableMask, tableMatch]; decide
theorem jp (nnn : Addr) : Statement (.jp nnn) := by simp [Statement, encode, tableMask, tableMatch]; decide
theorem call (nnn : Addr) : Statement (.call nnn) := by simp [Statement, encode, tableMask, tableMatch]; decide
theorem seImm (x : Nibble) (nn : Byte) : Statement (.seImm x nn) := by simp [Statement, encode, tableMask, tableMatch]; decide
theorem sneImm (x : Nibble) (nn : Byte) : Statement (.sneImm x nn) := by simp [Statement, encode, tableMask, tableMatch]; decide
theorem seReg (x : Nibble) (y : Nibble) : Statement (.seReg x y) := by simp [Statement, encode, tableMask, tableMatch]; decide
theorem ldImm (x : Nibble) (nn : Byte) : Statement (.ldImm x nn) := by simp [Statement, encode, tableMask, tableMatch]; decide
theorem addImm (x : Nibble) (nn : Byte) : Statement (.addImm x nn) := by simp [Statement, encode, tableMask, tableMatch]; decide
theorem ldReg (x : Nibble) (y : Nibble) : Statement (.ldReg x y) := by simp [Statement, encode, tableMask, tableMatch]; decide
theorem or (x : Nibble) (y : Nibble) : Statement (.or x y) := by simp [Statement, encode, tableMask, tableMatch]; decide
theorem and (x : Nibble) (y : Nibble) : Statement (.and x y) := by simp [Statement, encode, tableMask, tableMatch]; decide
theorem xor (x : Nibble) (y : Nibble) : Statement (.xor x y) := by simp [Statement, encode, tableMask, tableMatch]; decide
theorem addReg (x : Nibble) (y : Nibble) : Statement (.addReg x y) := by simp [Statement, encode, tableMask, tableMatch]; decide
theorem sub (x : Nibble) (y : Nibble) : Statement (.sub x y) := by simp [Statement, encode, tableMask, tableMatch]; decide
theorem shr (x : Nibble) (y : Nibble) : Statement (.shr x y) := by simp [Statement, encode, tableMask, tableMatch]; decide
theorem subn (x : Nibble) (y : Nibble) : Statement (.subn x y) := by simp [Statement, encode, tableMask, tableMatch]; decide
theorem shl (x : Nibble) (y : Nibble) : Statement (.shl x y) := by simp [Statement, encode, tableMask, tableMatch]; decide
theorem sneReg (x : Nibble) (y : Nibble) : Statement (.sneReg x y) := by simp [Statement, encode, tableMask, tableMatch]; decide
theorem ldI (nnn : Addr) : Statement (.ldI nnn) := by simp [Statement, encode, tableMask, tableMatch]; decide
theorem jpI (nnn : Addr) : Statement (.jpI nnn) := by simp [Statement, encode, tableMask, tableMatch]; decide
theorem rnd (x : Nibble) (nn : Byte) : Statement (.rnd x nn) := by simp [Statement, encode, tableMask, tableMatch]; decide
theorem drw (x : Nibble) (y : Nibble) (n : Nibble) : Statement (.drw x y n) := by simp [Statement, encode, tableMask, tableMatch]; decide
theorem skp (x : Nibble) : Statement (.skp x) := by simp [Statement, encode, tableMask, tableMatch]; decide
theorem sknp (x : Nibble) : Statement (.sknp x) := by simp [Statement, encode, tableMask, tableMatch]; decide
theorem ldVDt (x : Nibble) : Statement (.ldVDt x) := by simp [Statement, encode, tableMask, tableMatch]; decide
theorem ldVK (x : Nibble) : Statement (.ldVK x) := by simp [Statement, encode, tableMask, tableMatch]; decide
theorem ldDtV (x : Nibble) : Statement (.ldDtV x) := by simp [Statement, encode, tableMask, tableMatch]; decide
theorem ldStV (x : Nibble) : Statement (.ldStV x) := by simp [Statement, encode, tableMask, tableMatch]; decide
theorem addIV (x : Nibble) : Statement (.addIV x) := by simp [Statement, encode, tableMask, tableMatch]; decide
theorem ldFV (x : Nibble) : Statement (.ldFV x) := by simp [Statement, encode, tableMask, tableMatch]; decide
theorem ldHfV (x : Nibble) : Statement (.ldHfV x) := by simp [Statement, encode, tableMask, tableMatch]; decide
theorem ldBV (x : Nibble) : Statement (.ldBV x) := by simp [Statement, encode, tableMask, tableMatch]; decide
theorem ldMemV (x : Nibble) : Statement (.ldMemV x) := by simp [Statement, encode, tableMask, tableMatch]; decide
theorem ldVMem (x : Nibble) : Statement (.ldVMem x) := by simp [Statement, encode, tableMask, tableMatch]; decide
theorem ldRV (x : Nibble) : Statement (.ldRV x) := by simp [Statement, encode, tableMask, tableMatch]; decide
theorem ldVR (x : Nibble) : Statement (.ldVR x) := by simp [Statement, encode, tableMask, tableMatch]; decide

end Sys2Proof.Laws.TableRow
end

