-- ==== Sys2Proof/Tests/Slice0.lean ====
section
/-! SUPPORT. Tests of the definitions, and a witness for the hypotheses of each obligation that has some. The name of a
test carries the vector of spec/95_test_vectors.md it is taken from. -/

namespace Sys2Proof.Tests

open Sys2Proof.Machine

/-! ## Helpers -/

/-- The parameters the vectors assume: STACK_END = 0x1000, FONT_HI_BASE = 0x0A0. -/
def params : Params := { stackRoom := 4012, fontHiBase := 0x0A0 }

/-- Reset, with the vectors' parameters. -/
def s0 : State := { State.reset with params := params }

/-- Bytes put in memory. -/
def poke (s : State) (a : Nat) (bs : List Byte) : State := { s with mem := s.mem.putAll a bs }

/-- Pixels lit on an empty picture of a mode. -/
def lit (s : State) (m : Mode) (ps : List (Nat × Nat)) : State :=
  { s with mode := m, fb := ps.foldl (fun g p => g.setPixel p.1 p.2 true) (Framebuffer.blank m) }

/-- One step on a word placed at `pc` is executed, and what it leaves satisfies a test. -/
def after (s : State) (w : Nat) (p : State → Bool) : Bool :=
  match step (s.withFetchWord 16 w) with
  | .next t => t.fault.isNone && p t
  | .fault _ => false
  | .refused _ => false

/-- One step on a word placed at `pc` latches an error and leaves `pc`, `sp` and memory. -/
def faults (s : State) (w : Nat) (e : Fault) : Bool :=
  match step (s.withFetchWord 16 w) with
  | .next t => t.fault == some e && t.pc == s.pc && t.sp == s.sp && t.mem == (s.withFetchWord 16 w).mem
  | .fault _ => false
  | .refused _ => false

/-- One step on a word placed at `pc`, with the host's keys and random byte. -/
def afterWith (s : State) (w : Nat) (keys : Word) (rand : Byte) (p : State → Bool) : Bool :=
  match step { s.withFetchWord 16 w with pending := [.step none (some keys) (some rand)] } with
  | .next t => t.fault.isNone && p t
  | .fault _ => false
  | .refused _ => false

/-! ## WellFormed: what it refuses -/

theorem test_wf_sys_E0 : (Instr.sys 0x0E0).wellFormed = false := by decide
theorem test_wf_sys_EE : (Instr.sys 0x1EE).wellFormed = false := by decide
theorem test_wf_sys_C0 : (Instr.sys 0x0C0).wellFormed = false := by decide
theorem test_wf_sys_CF : (Instr.sys 0xFCF).wellFormed = false := by decide
theorem test_wf_sys_FB : (Instr.sys 0x0FB).wellFormed = false := by decide
theorem test_wf_sys_FC : (Instr.sys 0x0FC).wellFormed = false := by decide
theorem test_wf_sys_FD : (Instr.sys 0x0FD).wellFormed = false := by decide
theorem test_wf_sys_FE : (Instr.sys 0x0FE).wellFormed = false := by decide
theorem test_wf_sys_FF : (Instr.sys 0xFFF).wellFormed = false := by decide
theorem test_wf_sys_others : (Instr.sys 0x000).wellFormed = true ∧ (Instr.sys 0x0FA).wellFormed = true := by decide

/-! ## Decode: a word written out for every constructor -/

theorem test_decode_zero :
    decodeTableWord 16 0x00E0 = some .cls ∧ decodeTableWord 16 0x00EE = some .ret ∧
    decodeTableWord 16 0x00C5 = some (.scd 0x5) ∧ decodeTableWord 16 0x00FB = some .scr ∧
    decodeTableWord 16 0x00FC = some .scl ∧ decodeTableWord 16 0x00FD = some .exit ∧
    decodeTableWord 16 0x00FE = some .low ∧ decodeTableWord 16 0x00FF = some .high ∧
    decodeTableWord 16 0x0123 = some (.sys 0x123) := by decide
theorem test_decode_flow :
    decodeTableWord 16 0x1ABC = some (.jp 0xABC) ∧ decodeTableWord 16 0x2DEF = some (.call 0xDEF) ∧
    decodeTableWord 16 0x3A5C = some (.seImm 0xA 0x5C) ∧ decodeTableWord 16 0x4B6D = some (.sneImm 0xB 0x6D) ∧
    decodeTableWord 16 0x5AB0 = some (.seReg 0xA 0xB) ∧ decodeTableWord 16 0x9AB0 = some (.sneReg 0xA 0xB) ∧
    decodeTableWord 16 0xB123 = some (.jpI 0x123) := by decide
theorem test_decode_arithmetic :
    decodeTableWord 16 0x6C7E = some (.ldImm 0xC 0x7E) ∧ decodeTableWord 16 0x7D8F = some (.addImm 0xD 0x8F) ∧
    decodeTableWord 16 0x8AB0 = some (.ldReg 0xA 0xB) ∧ decodeTableWord 16 0x8AB1 = some (.or 0xA 0xB) ∧
    decodeTableWord 16 0x8AB2 = some (.and 0xA 0xB) ∧ decodeTableWord 16 0x8AB3 = some (.xor 0xA 0xB) ∧
    decodeTableWord 16 0x8AB4 = some (.addReg 0xA 0xB) ∧ decodeTableWord 16 0x8AB5 = some (.sub 0xA 0xB) ∧
    decodeTableWord 16 0x8AB6 = some (.shr 0xA 0xB) ∧ decodeTableWord 16 0x8AB7 = some (.subn 0xA 0xB) ∧
    decodeTableWord 16 0x8ABE = some (.shl 0xA 0xB) ∧ decodeTableWord 16 0xCE9A = some (.rnd 0xE 0x9A) := by decide
theorem test_decode_index :
    decodeTableWord 16 0xA456 = some (.ldI 0x456) ∧ decodeTableWord 16 0xF71E = some (.addIV 0x7) ∧
    decodeTableWord 16 0xF829 = some (.ldFV 0x8) ∧ decodeTableWord 16 0xF930 = some (.ldHfV 0x9) ∧
    decodeTableWord 16 0xFA33 = some (.ldBV 0xA) ∧ decodeTableWord 16 0xFB55 = some (.ldMemV 0xB) ∧
    decodeTableWord 16 0xFC65 = some (.ldVMem 0xC) ∧ decodeTableWord 16 0xFD75 = some (.ldRV 0xD) ∧
    decodeTableWord 16 0xFE85 = some (.ldVR 0xE) := by decide
theorem test_decode_timers_keys_display :
    decodeTableWord 16 0xE19E = some (.skp 0x1) ∧ decodeTableWord 16 0xE2A1 = some (.sknp 0x2) ∧
    decodeTableWord 16 0xF307 = some (.ldVDt 0x3) ∧ decodeTableWord 16 0xF40A = some (.ldVK 0x4) ∧
    decodeTableWord 16 0xF515 = some (.ldDtV 0x5) ∧ decodeTableWord 16 0xF618 = some (.ldStV 0x6) ∧
    decodeTableWord 16 0xD12F = some (.drw 0x1 0x2 0xF) := by decide
theorem test_decode_ignored_bits :
    decodeTableWord 16 0x0AE0 = some .cls ∧ decodeTableWord 16 0x0FFF = some .high ∧
    decodeTableWord 16 0x5AB3 = some (.seReg 0xA 0xB) ∧ decodeTableWord 16 0x9AB7 = some (.sneReg 0xA 0xB) := by decide
theorem test_decode_rejects :
    decodeTableWord 16 0x8008 = none ∧ decodeTableWord 16 0x800F = none ∧ decodeTableWord 16 0xE0A0 = none ∧
    decodeTableWord 16 0xF008 = none ∧ decodeTableWord 16 0xF031 = none ∧ decodeTableWord 16 0xFFFF = none := by decide
theorem test_encode_words :
    encode (.drw 0x1 0x2 0xF) = 0xD12F ∧ encode (.ldI 0x456) = 0xA456 ∧ encode (.shl 0xA 0xB) = 0x8ABE ∧
    encode (.ldVK 0x4) = 0xF40A ∧ encode (.scd 0x5) = 0x00C5 := by decide

/-! ## One step of an instruction -/

theorem test_CF1_ret : after (poke { s0 with sp := 0x054 } 0x052 [0x06, 0x02]) 0x00EE
    (fun t => t.pc == 0x206 && t.sp == 0x052) = true := by decide
theorem test_CF2_ret_empty : faults s0 0x00EE (.addressError 0x050 2) = true := by decide
theorem test_CF5_exit : after { s0 with pc := 0x20C } 0x00FD (fun t => t.pc == 0x20E && !t.running) = true := by decide
theorem test_CF7_sys : after s0 0x0123 (fun t => t.pc == 0x202 && t.running) = true := by decide
theorem test_CF9_jp : after s0 0x1FFF (fun t => t.pc == 0xFFF) = true := by decide
theorem test_CF12_call : after { s0 with pc := 0xFFC } 0x2ABC
    (fun t => t.pc == 0xABC && t.sp == 0x054 && t.mem.read 0x052 == 0xFE && t.mem.read 0x053 == 0x0F) = true := by decide
theorem test_CF11_call_full : faults { s0 with sp := 0x056, params := { params with stackRoom := 2 } } 0x2300
    (.addressError 0x056 2) = true := by decide
theorem test_CF15_se_wraps : after { s0.setV 0xF 0x01 with pc := 0xFFC } 0x3F01 (fun t => t.pc == 0x000) = true := by
  decide
theorem test_CF14_se_not : after (s0.setV 1 0x04) 0x3105 (fun t => t.pc == 0x202) = true := by decide
theorem test_CF16_sne : after (s0.setV 1 0x04) 0x4105 (fun t => t.pc == 0x204) = true := by decide
theorem test_CF19_se_reg : after ((s0.setV 1 0x07).setV 2 0x07) 0x5121 (fun t => t.pc == 0x204) = true := by decide
theorem test_CF20_se_reg_not : after ((s0.setV 1 0x07).setV 2 0x08) 0x5120 (fun t => t.pc == 0x202) = true := by decide
theorem test_CF22_sne_reg : after ((s0.setV 1 0x01).setV 2 0x02) 0x9120 (fun t => t.pc == 0x204) = true := by decide
theorem test_CF25_jp_i : after { s0 with i := 0xF00 } 0xB200 (fun t => t.pc == 0x100 && t.i == 0xF00) = true := by decide

theorem test_AR2_ld : after s0 0x6F12 (fun t => t.getV 0xF == 0x12 && t.pc == 0x202) = true := by decide
theorem test_AR4_add_imm : after ((s0.setV 1 0xFF).setV 0xF 0x07) 0x7101
    (fun t => t.getV 1 == 0x00 && t.getV 0xF == 0x07) = true := by decide
theorem test_AR5_ld_reg : after (s0.setV 2 0x33) 0x8120 (fun t => t.getV 1 == 0x33 && t.getV 2 == 0x33) = true := by decide
theorem test_AR6_or : after (((s0.setV 1 0x0C).setV 2 0x0A).setV 0xF 0x07) 0x8121
    (fun t => t.getV 1 == 0x0E && t.getV 0xF == 0x07) = true := by decide
theorem test_AR7_and : after ((s0.setV 1 0x0C).setV 2 0x0A) 0x8122 (fun t => t.getV 1 == 0x08) = true := by decide
theorem test_AR8_xor : after ((s0.setV 1 0x0C).setV 2 0x0A) 0x8123 (fun t => t.getV 1 == 0x06) = true := by decide
theorem test_AR10_add : after ((s0.setV 0 0xFF).setV 1 0x01) 0x8014
    (fun t => t.getV 0 == 0x00 && t.getV 0xF == 0x01) = true := by decide
theorem test_AR13_add_vf : after ((s0.setV 0xF 0xFF).setV 1 0x02) 0x8F14 (fun t => t.getV 0xF == 0x01) = true := by decide
theorem test_AR14_sub : after ((s0.setV 0 0x01).setV 1 0x02) 0x8015
    (fun t => t.getV 0 == 0xFF && t.getV 0xF == 0x00) = true := by decide
theorem test_AR16_sub_equal : after ((s0.setV 0 0x05).setV 1 0x05) 0x8015
    (fun t => t.getV 0 == 0x00 && t.getV 0xF == 0x00) = true := by decide
theorem test_AR18_shr : after (s0.setV 1 0x05) 0x8126
    (fun t => t.getV 2 == 0x02 && t.getV 1 == 0x05 && t.getV 0xF == 0x01) = true := by decide
theorem test_AR20_shr_vf : after (s0.setV 1 0x03) 0x81F6 (fun t => t.getV 0xF == 0x01) = true := by decide
theorem test_AR22_subn : after ((s0.setV 1 0x02).setV 2 0x05) 0x8127
    (fun t => t.getV 1 == 0x03 && t.getV 0xF == 0x01) = true := by decide
theorem test_AR23_subn_borrow : after ((s0.setV 1 0x05).setV 2 0x02) 0x8127
    (fun t => t.getV 1 == 0xFD && t.getV 0xF == 0x00) = true := by decide
theorem test_AR25_shl : after (s0.setV 1 0x81) 0x812E
    (fun t => t.getV 2 == 0x02 && t.getV 1 == 0x81 && t.getV 0xF == 0x01) = true := by decide
theorem test_AR28_rnd : afterWith s0 0xC10F 0 0xA7 (fun t => t.getV 1 == 0x07) = true := by decide
theorem test_AR30_unknown : faults s0 0x8128 (.unknownOpcode 0x8128) = true := by decide

theorem test_MI1_ld_i : after s0 0xA300 (fun t => t.i == 0x300) = true := by decide
theorem test_MI3_add_i : after { (s0.setV 2 0x02).setV 0xF 0x05 with i := 0xFFF } 0xF21E
    (fun t => t.i == 0x001 && t.getV 0xF == 0x05) = true := by decide
theorem test_MI6_ld_f : after (s0.setV 0 0xFF) 0xF029 (fun t => t.i == 0x4FB) = true := by decide
theorem test_MI7_ld_hf : after (s0.setV 0 0x03) 0xF030 (fun t => t.i == 0x0BE) = true := by decide
theorem test_MI8_bcd : after { s0.setV 1 0xEA with i := 0x300 } 0xF133
    (fun t => t.mem.read 0x300 == 2 && t.mem.read 0x301 == 3 && t.mem.read 0x302 == 4 && t.i == 0x300) = true := by decide
theorem test_MI11_bcd_out : faults { s0.setV 1 0xFF with i := 0xFFE } 0xF133 (.addressError 0xFFE 3) = true := by decide
theorem test_MI12_store : after { ((s0.setV 0 1).setV 1 2).setV 2 3 with i := 0x300 } 0xF255
    (fun t => t.mem.read 0x300 == 1 && t.mem.read 0x301 == 2 && t.mem.read 0x302 == 3 && t.i == 0x300) = true := by decide
theorem test_MI14_store_out : faults { (s0.setV 0 0xAB).setV 1 0xCD with i := 0xFFF } 0xF155
    (.addressError 0xFFF 2) = true := by decide
theorem test_MI15_load : after (poke { s0 with i := 0x300 } 0x300 [2, 3, 4]) 0xF265
    (fun t => t.getV 0 == 2 && t.getV 1 == 3 && t.getV 2 == 4 && t.getV 3 == 0 && t.i == 0x300) = true := by decide
theorem test_MI17_load_out : faults { s0 with i := 0xFF1 } 0xFF65 (.addressError 0xFF1 16) = true := by decide
theorem test_MI18_rpl_save : after (((s0.setV 0 0x11).setV 1 0x22).setV 2 0x33) 0xF175
    (fun t => t.getRpl 0 == 0x11 && t.getRpl 1 == 0x22 && t.getRpl 2 == 0x00) = true := by decide
theorem test_MI19_rpl_restore : after (((s0.setRpl 0 0x11).setRpl 1 0x22).setV 2 0x99) 0xF185
    (fun t => t.getV 0 == 0x11 && t.getV 1 == 0x22 && t.getV 2 == 0x99) = true := by decide

theorem test_TK1_skp : afterWith (s0.setV 1 0x04) 0xE19E 0x0010 0 (fun t => t.pc == 0x204) = true := by decide
theorem test_TK5_skp_no_key : afterWith (s0.setV 1 0x14) 0xE19E 0xFFFF 0 (fun t => t.pc == 0x202) = true := by decide
theorem test_TK3_sknp : afterWith (s0.setV 1 0x04) 0xE1A1 0x0000 0 (fun t => t.pc == 0x204) = true := by decide
theorem test_TK6_sknp_no_key : afterWith (s0.setV 1 0x14) 0xE1A1 0xFFFF 0 (fun t => t.pc == 0x204) = true := by decide
theorem test_TK8_ld_dt : after { s0 with dt := 0x3C } 0xF307 (fun t => t.getV 3 == 0x3C) = true := by decide
theorem test_TK9_key_wait : after { s0 with pc := 0x210 } 0xF50A
    (fun t => t.pc == 0x212 && t.await == some 5 && t.response == .stepped .awaitingKey (some 0xF50A)) = true := by decide
theorem test_TK10_set_dt : after (s0.setV 3 0x05) 0xF315 (fun t => t.dt == 0x05) = true := by decide
theorem test_TK12_set_st : after { s0 with st := 0x09 } 0xF418 (fun t => t.st == 0x00) = true := by decide

theorem test_DS1_cls : after (lit s0 .normal [(0, 0), (63, 31)]) 0x00E0
    (fun t => !t.fb.pixel 0 0 && !t.fb.pixel 63 31) = true := by decide
theorem test_DS2_scd : after (lit s0 .normal [(5, 0)]) 0x00C3
    (fun t => t.fb.pixel 5 3 && !t.fb.pixel 5 0) = true := by decide
theorem test_DS5_scr : after (lit s0 .normal [(62, 0), (3, 1)]) 0x00FB
    (fun t => t.fb.pixel 7 1 && !t.fb.pixel 3 1 && !t.fb.pixel 2 0) = true := by decide
theorem test_DS6_scl : after (lit s0 .normal [(7, 0), (2, 1)]) 0x00FC
    (fun t => t.fb.pixel 3 0 && !t.fb.pixel 7 0 && !t.fb.pixel 62 1) = true := by decide
theorem test_DS9_low_clears : after (lit s0 .normal [(1, 1)]) 0x00FE
    (fun t => t.mode == .normal && !t.fb.pixel 1 1) = true := by decide
theorem test_DS8_high : after (lit s0 .normal [(1, 1)]) 0x00FF
    (fun t => t.mode == .extended && !t.fb.pixel 1 1 && t.fb.length == 64) = true := by decide
theorem test_DS11_drw_collides :
    after (poke { ((lit s0 .normal [(63, 1)]).setV 0 0x3E).setV 1 0x01 with i := 0x300 } 0x300 [0xF0]) 0xD011
      (fun t => t.fb.pixel 0 1 && t.fb.pixel 1 1 && t.fb.pixel 62 1 && !t.fb.pixel 63 1 && t.getV 0xF == 1) = true := by
  decide
set_option maxRecDepth 20000 in
theorem test_DS17_drw_wide :
    after (poke { (lit s0 .extended []).setV 0 0x78 with i := 0x300 } 0x300 [0x80, 0x01]) 0xD010
      (fun t => t.fb.pixel 120 0 && t.fb.pixel 7 0 && !t.fb.pixel 121 0 && t.getV 0xF == 0) = true := by
  decide

/-! ## Transactions and memory -/

theorem test_OR3_injected :
    (match step { s0 with pending := [.step (some 0x6142) none none] } with
      | .next t => t.getV 1 == 0x42 && t.pc == 0x200 && t.response == .stepped .executed (some 0x6142)
      | .fault _ => false
      | .refused _ => false) = true := by decide
theorem test_OR10_load_out :
    (match step { s0 with pending := [.load 0xFFE [1, 2, 3]] } with
      | .next t => t.mem == [] && t.fault.isNone && t.response == .loaded (some (.addressError 0xFFE 3))
      | .fault _ => false
      | .refused _ => false) = true := by decide
theorem test_OR12_set_sp_odd :
    (match step { s0 with pending := [.setReg .sp 0x053] } with
      | .next t => t.sp == 0x052 && t.response == .setRefused
      | .fault _ => false
      | .refused _ => false) = true := by decide
theorem test_memory_canonical :
    (s0.mem.putAll 0x300 [1, 0, 2]) = [(0x300, 1), (0x302, 2)] ∧ ((s0.mem.put 0x300 7).put 0x300 0) = [] ∧
    Memory.wf (s0.mem.putAll 0x300 [1, 0, 2]) = true ∧ State.reset.mem.wf = true := by decide
theorem test_codes :
    Status.code .awaitingKey = 1 ∧ Status.code .halted = 2 ∧ Fault.code (.addressError 0 1) = 1 ∧
    Fault.code (.unknownOpcode 0) = 2 := by decide

/-! ## Witnesses: states and operands that meet the hypotheses of the obligations -/

/-- A word placed at `pc`, ready to run. -/
def at200 (w : Nat) : State := s0.withFetchWord 16 w

/-- Transactions issued. -/
def issued (s : State) (ts : List Transaction) : State := { s with pending := ts }

theorem witness_DecodeOfEncodeIsTheInstruction :
    (Instr.sys 0x0EF).wellFormed = true ∧ (Instr.sys 0x0BF).wellFormed = true ∧ (Instr.drw 1 2 3).wellFormed = true := by
  decide
theorem witness_EncodeOfDecodeIsTheWord :
    decodeWord 0x5AB3 = .ok (.seReg 0xA 0xB) ∧ encode (.seReg 0xA 0xB) = 0x5AB0 := ⟨rfl, rfl⟩
theorem witness_SecondLevelDispatch :
    opOf 0x8AB8 = 0x8 ∧ nOf 0x8AB8 ∈ ([0x8, 0x9, 0xA, 0xB, 0xC, 0xD, 0xF] : List Nibble) ∧
    opOf 0xE09F = 0xE ∧ nnOf 0xE09F ∉ ([0x9E, 0xA1] : List Byte) ∧ decodeWord 0xE09F = .error (.unknownOpcode 0xE09F) :=
  ⟨by decide, by decide, by decide, by decide, rfl⟩
theorem witness_IgnoredBitsDoNotSelect :
    (0xAEF : Addr).toNat % 256 ∉ [0xE0, 0xEE, 0xFB, 0xFC, 0xFD, 0xFE, 0xFF] ∧ (0xAEF : Addr).toNat / 16 % 16 ≠ 0xC ∧
    (0x0BF : Addr).toNat / 16 % 16 ≠ 0xC ∧ (0x0D0 : Addr).toNat / 16 % 16 ≠ 0xC := by decide
theorem witness_BlockWriteReadsBack :
    InMemory 0xFFD 3 ∧ ¬ InMemory 0xFFE 3 ∧ InMemory 0x1000 0 ∧ ¬ InMemory 0x1000 1 ∧ s0.mem.wf = true ∧
    ([1, 2, 3] : List Byte) ≠ [] := by decide
theorem witness_WordsAreBigEndian : 0xFFE + 1 < 4096 ∧ 4096 ≤ 0xFFF + 1 := by decide
set_option maxRecDepth 20000 in
theorem witness_StepKeepsInvariant :
    s0.Inv ∧ ({ lit s0 .extended [(127, 63)] with sp := 0x1000 } : State).Inv ∧ ∃ t, step (at200 0x2300) = .next t :=
  ⟨by decide, by decide, _, rfl⟩
theorem witness_OnlyLateLoadIsRefused :
    step (issued { s0 with started := true } [.load 0x200 [1]]) = .refused .loadAfterFirstStep := rfl
theorem witness_StepRunsTheDecodedInstruction :
    (at200 0x2300).Running ∧ (at200 0x2300).NextIsStep none none none [] ∧ (at200 0x2300).pc ≠ 0xFFF ∧
    decode [(at200 0x2300).mem.read (at200 0x2300).pc.toNat, (at200 0x2300).mem.read ((at200 0x2300).pc.toNat + 1)] =
      .ok (.call 0x300, []) ∧
    ({ s0 with pc := 0xFFE } : State).Running ∧ ({ s0 with pc := 0xFFF } : State).Running ∧
    (issued { s0 with pc := 0xFFF } [.step none (some 0) (some 0)]).NextIsStep none (some 0) (some 0) [] :=
  ⟨by decide, by decide, by decide, rfl, by decide, by decide, by decide⟩
theorem witness_StepRunsTheDecodedInstruction_issued :
    (issued (at200 0xE19E) [.step none (some 0x0010) (some 0xA7), .tick]).Running ∧
    (issued (at200 0xE19E) [.step none (some 0x0010) (some 0xA7), .tick]).NextIsStep none (some 0x0010) (some 0xA7)
      [.tick] ∧
    decode [(at200 0xE19E).mem.read 0x200, (at200 0xE19E).mem.read 0x201] = .ok (.skp 0x1, []) :=
  ⟨by decide, by decide, rfl⟩
theorem witness_FailedStepIsRolledBack :
    (at200 0x00EE).Running ∧ (at200 0x00EE).NextIsStep none none none [] ∧ (at200 0x00EE).SpInRegion ∧
    (at200 0x00EE).fetch = .ok 0x00EE ∧ decodeWord 0x00EE = .ok .ret ∧
    raisedError (((at200 0x00EE).sample none none).advance) .ret = some (.addressError 0x050 2) :=
  ⟨by decide, by decide, by decide, rfl, rfl, rfl⟩
theorem witness_FailedStepIsRolledBack_unknown :
    (issued (at200 0xFFFF) [.step none (some 1) none, .tick]).Running ∧
    (issued (at200 0xFFFF) [.step none (some 1) none, .tick]).NextIsStep none (some 1) none [.tick] ∧
    (issued (at200 0xFFFF) [.step none (some 1) none, .tick]).fetch = .ok 0xFFFF ∧
    decodeWord 0xFFFF = .error (.unknownOpcode 0xFFFF) := ⟨by decide, by decide, rfl, rfl⟩
theorem witness_FailedStepIsRolledBack_store :
    raisedError ((({ at200 0xF133 with i := 0xFFE } : State).sample none none).advance) (.ldBV 1) =
      some (.addressError 0xFFE 3) ∧
    raisedError ((({ at200 0x2300 with sp := 0x1000 } : State).sample none none).advance) (.call 0x300) =
      some (.addressError 0x1000 2) ∧
    ({ at200 0x2300 with sp := 0x1000 } : State).SpInRegion := by decide
theorem witness_StoppedStepsChangeNothing :
    (issued { s0 with fault := some (.unknownOpcode 0xFFFF) } [.step none none none]).NextIsStep none none none [] ∧
    (issued { s0 with running := false } [.step (some 0x00E0) none none]).NextIsStep (some 0x00E0) none none [] ∧
    ({ s0 with fault := some (.unknownOpcode 0xFFFF), running := false, await := some 5 } : State).NextIsStep none none none
      [] ∧
    ({ s0 with running := false } : State).fault = none ∧ ({ s0 with await := some 5 } : State).running = true ∧
    ({ s0 with await := some 5 } : State).fault = none := by decide
theorem witness_InjectedWordRunsUnadvanced :
    (issued s0 [.step (some 0x2300) none none]).Running ∧ decodeWord 0x2300 = .ok (.call 0x300) ∧
    ∃ t, exec (.call 0x300) s0 = .next t ∧ t.fault = none := ⟨by decide, rfl, _, rfl, rfl⟩
theorem witness_InjectedWordRunsUnadvanced_raises :
    decodeWord 0x00EE = .ok .ret ∧ ∃ t, exec .ret s0 = .next t ∧ t.fault = some (.addressError 0x050 2) :=
  ⟨rfl, _, rfl, rfl⟩
theorem witness_InjectedWordRunsUnadvanced_unknown :
    (issued s0 [.step (some 0x8128) (some 0) (some 0)]).Running ∧
    (issued s0 [.step (some 0x8128) (some 0) (some 0)]).pending = .step (some 0x8128) (some 0) (some 0) :: [] ∧
    decodeWord 0x8128 = .error (.unknownOpcode 0x8128) := ⟨by decide, rfl, rfl⟩
theorem witness_StoredBytesAreFetchedNext :
    ({ at200 0xF155 with i := 0x202 } : State).Running ∧
    ({ at200 0xF155 with i := 0x202 } : State).NextIsStep none none none [] ∧
    ({ at200 0xF155 with i := 0x202 } : State).fetch = .ok (encode (.ldMemV 1)) ∧
    (0x202 : Addr).toNat = (at200 0xF155).pc.toNat + 2 ∧ 1 ≤ (1 : Nibble).toNat ∧
    (at200 0xF155).pc.toNat + 2 + (1 : Nibble).toNat < 4096 ∧ (0xFFC : Addr).toNat + 2 + (1 : Nibble).toNat < 4096 :=
  ⟨by decide, by decide, rfl, by decide, by decide, by decide, by decide⟩
theorem witness_ResetTransactionRestoresAll :
    (issued { s0 with fault := some (.addressError 0 1), started := true } [.reset]).pending = .reset :: [] := rfl
theorem witness_TickCountsBothTimersDown :
    (issued { s0 with dt := 0x00, st := 0x01 } [.tick, .tick]).pending = .tick :: [.tick] := rfl
theorem witness_KeyPressEndsOnlyAWait :
    (issued { s0 with await := some 0xF } [.keyPress 0xF]).pending = .keyPress 0xF :: [] ∧
    s0.fault = none ∧ s0.running = true ∧ s0.await = none ∧
    (issued { s0 with running := false } [.keyPress 0x3]).running = false ∧
    (issued { s0 with fault := some (.unknownOpcode 0xFFFF) } [.keyPress 0x3]).fault ≠ none := by decide
theorem witness_SetThenGetIsMasked :
    (issued s0 [.setReg (.v 3) 0x1AB, .getReg (.v 3)]).pending = .setReg (.v 3) 0x1AB :: .getReg (.v 3) :: [] ∧
    (issued s0 [.setReg (.rpl 2) 256, .getReg (.rpl 2)]).pending = .setReg (.rpl 2) 256 :: .getReg (.rpl 2) :: [] ∧
    (issued s0 [.setReg .i 0x1234, .getReg .i]).pending = .setReg .i 0x1234 :: .getReg .i :: [] ∧
    (issued s0 [.setReg .pc 0xFFFF, .getReg .pc]).pending = .setReg .pc 0xFFFF :: .getReg .pc :: [] ∧
    RegName.v 3 ≠ .sp ∧ RegName.pc ≠ .sp := by decide
theorem witness_SetStackPointerIsGuarded :
    (issued s0 [.setReg .sp 0x1000]).pending = .setReg .sp 0x1000 :: [] ∧
    (0x052 ≤ 0x052 ∧ 0x052 ≤ params.stackEnd ∧ 0x052 % 2 = 0) ∧ (0x052 ≤ 0x1000 ∧ 0x1000 ≤ params.stackEnd ∧ 0x1000 % 2 = 0) ∧
    0x050 < 0x052 ∧ params.stackEnd < 0x1002 ∧ 0x053 % 2 = 1 := by decide
theorem witness_LoadOnlyBeforeTheFirstStep :
    (issued s0 [.load 0xFFD [1, 2, 3]]).started = false ∧ InMemory 0xFFD ([1, 2, 3] : List Byte).length ∧
    ¬ InMemory 0xFFE ([1, 2, 3] : List Byte).length ∧ ([1, 2, 3] : List Byte) ≠ [] ∧
    ({ s0 with started := true } : State).started = true := by decide
theorem witness_ObservationIsFaithful :
    (issued s0 [.observe]).pending = .observe :: [] ∧ s0.mode = .normal ∧ (lit s0 .extended []).mode = .extended := by decide
theorem witness_ReturnPopsTheFrame :
    ({ s0 with sp := 0x054 } : State).SpInRegion ∧ 0x054 ≤ ({ s0 with sp := 0x054 } : State).sp.toNat ∧
    ({ s0 with sp := 0x1000 } : State).SpInRegion := by decide
theorem witness_CallPushesTheReturnAddress :
    s0.sp.toNat + 2 ≤ s0.params.stackEnd ∧
    ({ s0 with sp := 0xFFE } : State).sp.toNat + 2 ≤ ({ s0 with sp := 0xFFE } : State).params.stackEnd := by decide
theorem witness_CallThenReturnResumes : 0x052 ≤ s0.sp.toNat ∧ s0.sp.toNat + 2 ≤ s0.params.stackEnd := by decide
theorem witness_ExitHaltsTheCore :
    ({ s0 with running := false } : State).NextIsStep none none none [] ∧
    ({ s0 with running := false } : State).fault = none ∧ ({ s0 with running := false } : State).running = false ∧
    (issued { s0 with running := false } [.step none (some 1) (some 2)]).NextIsStep none (some 1) (some 2) [] ∧
    (issued { s0 with running := false } [.tick]).pending = .tick :: [] := by decide
theorem witness_SysDoesNothing :
    (Instr.sys 0x000).wellFormed = true ∧ (Instr.sys 0xF0F).wellFormed = true := by decide
theorem witness_DecimalDigitsAreStored :
    ({ s0 with i := 0xFFD } : State).i.toNat ≤ 0xFFD ∧ 0xFFD < ({ s0 with i := 0xFFE } : State).i.toNat := by decide
theorem witness_RegistersAreStored :
    ({ s0 with i := 0xFFF } : State).i.toNat + (0 : Nibble).toNat ≤ 0xFFF ∧
    ({ s0 with i := 0xFF0 } : State).i.toNat + (0xF : Nibble).toNat ≤ 0xFFF := by decide
theorem witness_RegistersAreLoaded :
    ({ s0 with i := 0xFFF } : State).i.toNat + (0 : Nibble).toNat ≤ 0xFFF ∧
    ({ s0 with i := 0xFF0 } : State).i.toNat + (0xF : Nibble).toNat ≤ 0xFFF := by decide
theorem witness_RandomUnderTheMask :
    ({ s0 with randIn := some 0xA7 } : State).randIn = some 0xA7 ∧ s0.randIn = none := ⟨rfl, rfl⟩
theorem witness_SkipsOnKeys :
    ({ s0 with keysIn := some 0x0010 } : State).keysIn = some 0x0010 ∧ s0.keysIn = none := ⟨rfl, rfl⟩
theorem witness_FlagDestinations : (0x1 : Nibble) ≠ vf ∧ (0xE : Nibble) ≠ vf ∧ ¬ (0xF : Nibble) ≠ vf := by decide
theorem witness_KeyWaitFromStartToEnd :
    (issued (at200 0xF50A) [.step none (some 1) none, .step (some 0x00E0) none none, .keyPress 0xB]).Running ∧
    (issued (at200 0xF50A) [.step none (some 1) none, .step (some 0x00E0) none none, .keyPress 0xB]).fetch =
      .ok (packXnn 0xF 0x5 0x0A) := ⟨by decide, rfl⟩
theorem witness_ClearTurnsEveryPixelOff : OnScreen s0.mode 63 31 ∧ OnScreen (lit s0 .extended []).mode 127 63 := by decide
theorem witness_ScrollsMoveWithoutWrapping :
    OnScreen s0.mode 5 (28 + (3 : Nibble).toNat) ∧ OnScreen s0.mode 5 2 ∧ 2 < (3 : Nibble).toNat ∧
    OnScreen s0.mode (59 + 4) 0 ∧ OnScreen s0.mode 3 0 ∧ OnScreen s0.mode 60 0 ∧ s0.mode.width ≤ 60 + 4 := by decide
theorem witness_DrawsEightWideSprites :
    s0.FbSized ∧ s0.mode = .normal ∧ InMemory ({ s0 with i := 0xFF1 } : State).i.toNat (0xF : Nibble).toNat ∧
    (lit s0 .extended []).FbSized ∧ (0xF : Nibble) ≠ 0 ∧ InMemory ({ s0 with i := 0xFFF } : State).i.toNat (0 : Nibble).toNat := by
  decide
set_option maxRecDepth 20000 in
theorem witness_DrawsSixteenWideSprites :
    (lit s0 .extended [(1, 1)]).FbSized ∧ ({ lit s0 .extended [(1, 1)] with i := 0xFE0 } : State).mode = .extended ∧
    ({ lit s0 .extended [(1, 1)] with i := 0xFE0 } : State).i.toNat ≤ 0xFE0 := by decide
theorem witness_DrawingTwiceRestores :
    s0.FbSized ∧ (0x0 : Nibble) ≠ vf ∧ (0x1 : Nibble) ≠ vf ∧ InMemory s0.i.toNat (drwLength s0.mode 0x5) ∧
    InMemory ({ lit s0 .extended [] with i := 0xFE0 } : State).i.toNat (drwLength .extended 0x0) ∧
    ∃ t, exec (.drw 0x0 0x1 0x5) s0 = .next t ∧ t.getV 0x0 = s0.getV 0x0 ∧ t.getV 0x1 = s0.getV 0x1 :=
  ⟨by decide, by decide, by decide, by decide, by decide, _, rfl, rfl, rfl⟩
theorem witness_ErrorsAreThoseOfTheTable :
    s0.SpInRegion ∧ raisedError s0 .ret = some (.addressError 0x050 2) ∧
    raisedError { s0 with sp := 0x1000 } (.call 0x200) = some (.addressError 0x1000 2) ∧
    ({ s0 with sp := 0x1000 } : State).SpInRegion ∧
    raisedError { s0 with i := 0xFF2 } (.drw 0 1 0xF) = some (.addressError 0xFF2 15) ∧
    raisedError { lit s0 .extended [] with i := 0xFE1 } (.drw 0 1 0) = some (.addressError 0xFE1 32) ∧
    raisedError { s0 with i := 0xFFE } (.ldBV 1) = some (.addressError 0xFFE 3) ∧
    raisedError { s0 with i := 0xFFF } (.ldMemV 1) = some (.addressError 0xFFF 2) ∧
    raisedError { s0 with i := 0xFF1 } (.ldVMem 0xF) = some (.addressError 0xFF1 16) := by decide
theorem witness_ErrorsAreThoseOfTheTable_none :
    raisedError { s0 with sp := 0x054 } .ret = none ∧ raisedError { s0 with sp := 0xFFE } (.call 0x200) = none ∧
    raisedError { s0 with i := 0xFF1 } (.drw 0 1 0xF) = none ∧ raisedError { s0 with i := 0xFFD } (.ldBV 1) = none ∧
    raisedError { s0 with i := 0xFFF } (.ldMemV 0) = none ∧ raisedError s0 .cls = none := by decide
theorem witness_OnlyStoresWriteMemory :
    (∃ t, exec (.call 0x300) s0 = .next t) ∧ storesTo s0 (.call 0x300) = (0x052, 2) ∧ storesTo s0 .cls = (0, 0) :=
  ⟨⟨_, rfl⟩, rfl, rfl⟩
theorem witness_OnlyListedWritersWriteRegisters :
    (∃ t, exec (.addReg 0 1) s0 = .next t) ∧ writesReg 2 (.addReg 0 1) = false ∧ writesReg vf (.addImm 0 1) = false :=
  ⟨⟨_, rfl⟩, rfl, rfl⟩
theorem witness_SpecialStateHasItsWriters :
    (∃ t, exec (.ldI 0x300) s0 = .next t ∧ t.i ≠ s0.i) ∧ (∃ t, exec (.call 0x300) s0 = .next t ∧ t.sp ≠ s0.sp) ∧
    (∃ t, exec .exit s0 = .next t ∧ t.running ≠ s0.running) ∧ (∃ t, exec (.ldVK 0) s0 = .next t ∧ t.await ≠ s0.await) ∧
    (∃ t, exec .high s0 = .next t ∧ t.mode ≠ s0.mode ∧ t.fb ≠ s0.fb) :=
  ⟨⟨_, rfl, by decide⟩, ⟨_, rfl, by decide⟩, ⟨_, rfl, by decide⟩, ⟨_, rfl, by decide⟩,
    ⟨_, rfl, by decide, fun h => absurd (congrArg List.length h) (by decide)⟩⟩
theorem witness_SpecialStateHasItsWriters_registers :
    (∃ t, exec (.ldRV 0) (s0.setV 0 1) = .next t ∧ t.getRpl 0 ≠ (s0.setV 0 1).getRpl 0) ∧
    (∃ t, exec (.ldDtV 0) (s0.setV 0 1) = .next t ∧ t.dt ≠ (s0.setV 0 1).dt) ∧
    (∃ t, exec (.ldStV 0) (s0.setV 0 1) = .next t ∧ t.st ≠ (s0.setV 0 1).st) ∧
    (∃ t, exec .ret s0 = .next t ∧ t.fault ≠ s0.fault) :=
  ⟨⟨_, rfl, by decide⟩, ⟨_, rfl, by decide⟩, ⟨_, rfl, by decide⟩, ⟨_, rfl, by decide⟩⟩
theorem witness_OnlyControlFlowMovesPc :
    (∃ t, exec (.jp 0x300) s0 = .next t ∧ t.pc ≠ s0.pc) ∧ (∃ t, exec (.seImm 0 0) s0 = .next t ∧ t.pc ≠ s0.pc) :=
  ⟨⟨_, rfl, by decide⟩, ⟨_, rfl, by decide⟩⟩
theorem witness_InputsReachOnlyTheirReaders :
    (∃ t, exec (.ldStV 0) s0 = .next t) ∧ (∀ x, Instr.cls ≠ .skp x ∧ Instr.cls ≠ .sknp x) ∧
    (∀ x nn, Instr.cls ≠ .rnd x nn) ∧ (∀ x, Instr.cls ≠ .ldStV x) :=
  ⟨⟨_, rfl⟩, fun _ => ⟨Instr.noConfusion, Instr.noConfusion⟩, fun _ _ => Instr.noConfusion, fun _ => Instr.noConfusion⟩

end Sys2Proof.Tests
end

section
/-! SUPPORT. The decoder's dispatch said once: what the top nibble selects, and which words each second level
rejects. -/

namespace Sys2Proof

variable (x y n : Nibble) (nn : Byte) (nnn : Addr)

/-! ## Families without a second level (R89) -/

@[simp] theorem decodeWord_jp : decodeWord (packNnn 0x1#4 nnn) = .ok (.jp nnn) := by simp [decodeWord]
@[simp] theorem decodeWord_call : decodeWord (packNnn 0x2#4 nnn) = .ok (.call nnn) := by simp [decodeWord]
@[simp] theorem decodeWord_ldI : decodeWord (packNnn 0xA#4 nnn) = .ok (.ldI nnn) := by simp [decodeWord]
@[simp] theorem decodeWord_jpI : decodeWord (packNnn 0xB#4 nnn) = .ok (.jpI nnn) := by simp [decodeWord]
@[simp] theorem decodeWord_seImm : decodeWord (packXnn 0x3#4 x nn) = .ok (.seImm x nn) := by simp [decodeWord]
@[simp] theorem decodeWord_sneImm : decodeWord (packXnn 0x4#4 x nn) = .ok (.sneImm x nn) := by simp [decodeWord]
@[simp] theorem decodeWord_ldImm : decodeWord (packXnn 0x6#4 x nn) = .ok (.ldImm x nn) := by simp [decodeWord]
@[simp] theorem decodeWord_addImm : decodeWord (packXnn 0x7#4 x nn) = .ok (.addImm x nn) := by simp [decodeWord]
@[simp] theorem decodeWord_rnd : decodeWord (packXnn 0xC#4 x nn) = .ok (.rnd x nn) := by simp [decodeWord]
@[simp] theorem decodeWord_drw : decodeWord (packXyn 0xD#4 x y n) = .ok (.drw x y n) := by simp [decodeWord]

/-! ## Families with a second level (R85 to R87) -/

section TopNibble

variable {w : Word}

theorem decodeWord_of_opOf_8 (h : opOf w = 0x8) : decodeWord w = decodeEight w := by simp [decodeWord, h]

theorem decodeWord_of_opOf_E (h : opOf w = 0xE) : decodeWord w = decodeE w := by simp [decodeWord, h]

theorem decodeWord_of_opOf_F (h : opOf w = 0xF) : decodeWord w = decodeF w := by simp [decodeWord, h]

/-- Every other family is total (R84, R88, R89). -/
theorem exists_decodeWord_ok (h8 : opOf w ≠ 0x8) (hE : opOf w ≠ 0xE) (hF : opOf w ≠ 0xF) :
    ∃ i, decodeWord w = .ok i := by
  unfold decodeWord
  split
  case h_9 h => exact absurd h h8
  case h_15 h => exact absurd h hE
  case h_16 =>
    exfalso
    generalize opOf w = op at *
    revert op
    decide
  all_goals exact ⟨_, rfl⟩

end TopNibble

@[simp] theorem decodeWord_packXyn_8 : decodeWord (packXyn 0x8#4 x y n) = decodeEight (packXyn 0x8#4 x y n) :=
  decodeWord_of_opOf_8 (opOf_packXyn ..)

@[simp] theorem decodeWord_packXnn_E : decodeWord (packXnn 0xE#4 x nn) = decodeE (packXnn 0xE#4 x nn) :=
  decodeWord_of_opOf_E (opOf_packXnn ..)

@[simp] theorem decodeWord_packXnn_F : decodeWord (packXnn 0xF#4 x nn) = decodeF (packXnn 0xF#4 x nn) :=
  decodeWord_of_opOf_F (opOf_packXnn ..)

/-! ## Rejected words (R90) -/

section Rejected

variable (w : Word)

theorem decodeEight_eq_error_iff :
    decodeEight w = .error (.unknownOpcode w) ↔ nOf w ∈ [0x8, 0x9, 0xA, 0xB, 0xC, 0xD, 0xF] := by
  unfold decodeEight
  split
  case h_10 =>
    refine iff_of_true rfl ?_
    generalize nOf w = n at *
    decide +revert
  all_goals simp [*]

theorem decodeE_eq_error_iff :
    decodeE w = .error (.unknownOpcode w) ↔ nnOf w ∉ [0x9E, 0xA1] := by
  unfold decodeE
  split
  case h_3 => simp_all
  all_goals simp [*]

theorem decodeF_eq_error_iff :
    decodeF w = .error (.unknownOpcode w) ↔
      nnOf w ∉ [0x07, 0x0A, 0x15, 0x18, 0x1E, 0x29, 0x30, 0x33, 0x55, 0x65, 0x75, 0x85] := by
  unfold decodeF
  split
  case h_13 => simp_all
  all_goals simp [*]

/-- A word is rejected exactly when the second level its top nibble selects rejects it. -/
theorem decodeWord_eq_error_iff :
    decodeWord w = .error (.unknownOpcode w) ↔
      (opOf w = 0x8 ∧ decodeEight w = .error (.unknownOpcode w)) ∨
      (opOf w = 0xE ∧ decodeE w = .error (.unknownOpcode w)) ∨
      (opOf w = 0xF ∧ decodeF w = .error (.unknownOpcode w)) := by
  by_cases h8 : opOf w = 0x8#4
  · simp [decodeWord_of_opOf_8 h8, h8]
  by_cases hE : opOf w = 0xE#4
  · simp [decodeWord_of_opOf_E hE, hE]
  by_cases hF : opOf w = 0xF#4
  · simp [decodeWord_of_opOf_F hF, hF]
  obtain ⟨i, hi⟩ := exists_decodeWord_ok h8 hE hF
  simp [hi, h8, hE, hF]

end Rejected

end Sys2Proof
end

section
/-! PROOFS. The obligations on the decoder's families. -/

namespace Sys2Proof

/-- Settles O5: each conjunct is the decoder's equation for that family. -/
theorem singleLevelFamilies : Obligations.SingleLevelFamilies :=
  ⟨fun nnn => ⟨decodeWord_jp nnn, decodeWord_call nnn, decodeWord_ldI nnn, decodeWord_jpI nnn⟩,
    fun x nn => ⟨decodeWord_seImm x nn, decodeWord_sneImm x nn, decodeWord_ldImm x nn, decodeWord_addImm x nn,
      decodeWord_rnd x nn⟩,
    decodeWord_drw⟩

/-- Settles O4: each named code runs through its family's second level, and the rejected words are those that a second
level rejects. -/
theorem secondLevelDispatch : Obligations.SecondLevelDispatch := by
  unfold Obligations.SecondLevelDispatch
  refine ⟨fun x y => ?eight, fun x => ?e, fun x => ?f, fun w => ?rejected⟩
  case eight => simp [decodeEight]
  case e => simp [decodeE]
  case f => simp [decodeF]
  case rejected =>
    rw [decodeWord_eq_error_iff, decodeEight_eq_error_iff, decodeE_eq_error_iff, decodeF_eq_error_iff]

end Sys2Proof
end

section
/-! SUPPORT. The instructions that write one address register: what each of them answers, what the write leaves
unchanged, and where a skip leads (R140, R144, R146, R147, R190). -/

namespace Sys2Proof.Machine

variable (s : State)

/-! ## Frames (R129) -/

theorem changesOnly_pc (a : Addr) : ChangesOnly [.pc] s { s with pc := a } := by
  refine ⟨fun c hc => ?_, rfl, rfl⟩
  cases c
  case pc => simp at hc
  all_goals simp [Component.Same, State.getV, State.getRpl]

theorem changesOnly_i (a : Addr) : ChangesOnly [.i] s { s with i := a } := by
  refine ⟨fun c hc => ?_, rfl, rfl⟩
  cases c
  case i => simp at hc
  all_goals simp [Component.Same, State.getV, State.getRpl]

theorem State.setPc_changesOnly (v : Nat) : ChangesOnly [.pc] s (s.setPc v) := changesOnly_pc s _

theorem State.setI_changesOnly (v : Nat) : ChangesOnly [.i] s (s.setI v) := changesOnly_i s _

theorem State.skipIf_changesOnly (c : Bool) : ChangesOnly [.pc] s (s.skipIf c) := changesOnly_pc s _

/-! ## The address written -/

/-- An address is written as it is: it is below 4096 (R13). -/
theorem State.setPc_toNat_pc (a : Addr) : (s.setPc a.toNat).pc = a := by simp

theorem State.setI_toNat_i (a : Addr) : (s.setI a.toNat).i = a := by simp

theorem State.skipIf_pc_toNat (c : Bool) :
    (s.skipIf c).pc.toNat = if c then (s.pc.toNat + 2) % 4096 else s.pc.toNat := by
  cases c
  · rfl
  · exact BitVec.toNat_ofNat _ _

/-! ## What the instructions answer -/

theorem exec_jp (nnn : Addr) : exec (.jp nnn) s = .next (s.setPc nnn.toNat) := rfl

theorem exec_ldI (nnn : Addr) : exec (.ldI nnn) s = .next (s.setI nnn.toNat) := rfl

theorem exec_seImm (x : Nibble) (nn : Byte) : exec (.seImm x nn) s = .next (s.skipIf (s.getV x == nn)) := rfl

theorem exec_sneImm (x : Nibble) (nn : Byte) : exec (.sneImm x nn) s = .next (s.skipIf (s.getV x != nn)) := rfl

end Sys2Proof.Machine
end

section
/-! PROOFS. The obligations on jumps, skips and the load of `I`. -/

namespace Sys2Proof

open Machine

/-- Settles O30: both targets are 12-bit values, which the write to `pc` or `I` keeps whole. -/
theorem twelveBitTargetsAreTaken : Obligations.TwelveBitTargetsAreTaken := fun nnn s =>
  ⟨decodeWord_jp nnn, decodeWord_ldI nnn,
    ⟨_, exec_jp s nnn, s.setPc_toNat_pc nnn, s.setPc_changesOnly _⟩,
    ⟨_, exec_ldI s nnn, s.setI_toNat_i nnn, s.setI_changesOnly _⟩⟩

/-- Settles O32: each of the two is a skip taken on its own condition. -/
theorem skipsOnImmediate : Obligations.SkipsOnImmediate := by
  intro x nn s
  refine ⟨decodeWord_seImm x nn, decodeWord_sneImm x nn,
    ⟨_, exec_seImm s x nn, s.skipIf_changesOnly _, ?se⟩, ⟨_, exec_sneImm s x nn, s.skipIf_changesOnly _, ?sne⟩⟩
  case se => simp only [State.skipIf_pc_toNat, beq_iff_eq]
  case sne => simp only [State.skipIf_pc_toNat, bne_iff_ne]

end Sys2Proof
end

section
/-! SUPPORT. The arithmetic instructions: how their words decode, what each of them answers, and what writing a register
or a result with its flag does to the register file and leaves unchanged (R85, R160 to R170, R173). -/

namespace Sys2Proof

/-! ## The 0x8 family (R85) -/

section Eight

variable (x y : Nibble)

@[simp] theorem decodeWord_ldReg : decodeWord (packXyn 0x8#4 x y 0x0#4) = .ok (.ldReg x y) := by simp [decodeEight]
@[simp] theorem decodeWord_or : decodeWord (packXyn 0x8#4 x y 0x1#4) = .ok (.or x y) := by simp [decodeEight]
@[simp] theorem decodeWord_and : decodeWord (packXyn 0x8#4 x y 0x2#4) = .ok (.and x y) := by simp [decodeEight]
@[simp] theorem decodeWord_xor : decodeWord (packXyn 0x8#4 x y 0x3#4) = .ok (.xor x y) := by simp [decodeEight]
@[simp] theorem decodeWord_addReg : decodeWord (packXyn 0x8#4 x y 0x4#4) = .ok (.addReg x y) := by simp [decodeEight]
@[simp] theorem decodeWord_sub : decodeWord (packXyn 0x8#4 x y 0x5#4) = .ok (.sub x y) := by simp [decodeEight]
@[simp] theorem decodeWord_subn : decodeWord (packXyn 0x8#4 x y 0x7#4) = .ok (.subn x y) := by simp [decodeEight]

end Eight

namespace Machine

variable (s : State) (x y : Nibble) (nn b f : Byte)

/-! ## Frames (R129) -/

theorem changesOnly_v (regs : RegFile) : ChangesOnly [.v] s { s with v := regs } := by
  refine ⟨fun c hc => ?_, rfl, rfl⟩
  cases c
  case v => simp at hc
  all_goals simp [Component.Same, State.getRpl]

theorem State.setV_changesOnly : ChangesOnly [.v] s (s.setV x b) := changesOnly_v s _

theorem State.setResultAndFlag_changesOnly : ChangesOnly [.v] s (s.setResultAndFlag x b f) := changesOnly_v s _

theorem State.setV_keepsRegsBut : KeepsRegsBut [x] s (s.setV x b) := fun _ hr =>
  s.getV_setV_other b (List.ne_of_not_mem_cons hr)

theorem State.setResultAndFlag_keepsRegsBut : KeepsRegsBut [x, vf] s (s.setResultAndFlag x b f) := by
  intro r hr
  obtain ⟨hx, hvf⟩ : r ≠ x ∧ r ≠ vf := by simpa using hr
  rw [State.getV_setResultAndFlag, if_neg hvf, if_neg hx]

/-! ## The result and the flag (R173) -/

/-- The flag is written last, so it wins when the result goes to VF too. -/
theorem State.getV_setResultAndFlag_vf : (s.setResultAndFlag x b f).getV vf = f := by
  rw [State.getV_setResultAndFlag, if_pos rfl]

theorem State.getV_setResultAndFlag_result {x : Nibble} (h : x ≠ vf) : (s.setResultAndFlag x b f).getV x = b := by
  rw [State.getV_setResultAndFlag, if_neg h, if_pos rfl]

/-- What a sum and its carry leave in the registers, for any two addends (R167). -/
theorem State.setResultAndFlag_sum (a b : Byte) :
    let t := s.setResultAndFlag x (BitVec.ofNat 8 (a.toNat + b.toNat)) (carryFlag a b)
    t.getV vf = (if 255 < a.toNat + b.toNat then 1 else 0) ∧
      (x ≠ vf → (t.getV x).toNat = (a.toNat + b.toNat) % 256) ∧
      KeepsRegsBut [x, vf] s t ∧ ChangesOnly [.v] s t := by
  refine ⟨?carry, fun hx => ?sum, s.setResultAndFlag_keepsRegsBut _ _ _, s.setResultAndFlag_changesOnly _ _ _⟩
  case carry => rw [State.getV_setResultAndFlag_vf, carryFlag_eq]
  case sum => rw [State.getV_setResultAndFlag_result s _ _ hx, BitVec.toNat_ofNat]

/-- What a difference and its flag leave in the registers, for any minuend `a` and subtrahend `b` (R168, R170). -/
theorem State.setResultAndFlag_difference (a b : Byte) :
    let t := s.setResultAndFlag x (difference a b) (greaterFlag a b)
    t.getV vf = (if b.toNat < a.toNat then 1 else 0) ∧ (x ≠ vf → t.getV x = a - b) ∧
      KeepsRegsBut [x, vf] s t ∧ ChangesOnly [.v] s t := by
  refine ⟨?greater, fun hx => ?difference,
    s.setResultAndFlag_keepsRegsBut _ _ _, s.setResultAndFlag_changesOnly _ _ _⟩
  case greater => rw [State.getV_setResultAndFlag_vf, greaterFlag_eq]
  case difference => rw [State.getV_setResultAndFlag_result s _ _ hx, difference_eq_sub]

/-! ## What the instructions answer -/

theorem exec_ldImm : exec (.ldImm x nn) s = .next (s.setV x nn) := rfl

theorem exec_addImm :
    exec (.addImm x nn) s = .next (s.setV x (BitVec.ofNat 8 ((s.getV x).toNat + nn.toNat))) := rfl

theorem exec_ldReg : exec (.ldReg x y) s = .next (s.setV x (s.getV y)) := rfl

theorem exec_or : exec (.or x y) s = .next (s.setV x (s.getV x ||| s.getV y)) := rfl

theorem exec_and : exec (.and x y) s = .next (s.setV x (s.getV x &&& s.getV y)) := rfl

theorem exec_xor : exec (.xor x y) s = .next (s.setV x (s.getV x ^^^ s.getV y)) := rfl

theorem exec_addReg :
    exec (.addReg x y) s = .next (s.setResultAndFlag x (BitVec.ofNat 8 ((s.getV x).toNat + (s.getV y).toNat))
      (carryFlag (s.getV x) (s.getV y))) := rfl

theorem exec_sub :
    exec (.sub x y) s = .next (s.setResultAndFlag x (difference (s.getV x) (s.getV y))
      (greaterFlag (s.getV x) (s.getV y))) := rfl

theorem exec_subn :
    exec (.subn x y) s = .next (s.setResultAndFlag x (difference (s.getV y) (s.getV x))
      (greaterFlag (s.getV y) (s.getV x))) := rfl

end Machine

end Sys2Proof
end

section
/-! PROOFS. The obligations on the register and arithmetic instructions. -/

namespace Sys2Proof

open Machine

/-- Settles O38: SUB and SUBN are one flagged difference with the operands exchanged. -/
theorem subtractionsCompareStrictly : Obligations.SubtractionsCompareStrictly := fun x y s =>
  ⟨decodeWord_sub x y, decodeWord_subn x y,
    ⟨_, exec_sub s x y, s.setResultAndFlag_difference x (s.getV x) (s.getV y)⟩,
    ⟨_, exec_subn s x y, s.setResultAndFlag_difference x (s.getV y) (s.getV x)⟩⟩

/-- Settles O34: both loads are one register write of the operand as it stands. -/
theorem loadsOfImmediateAndRegister : Obligations.LoadsOfImmediateAndRegister := fun x y nn s =>
  ⟨decodeWord_ldImm x nn, decodeWord_ldReg x y,
    ⟨_, exec_ldImm s x nn, s.getV_setV_same x _, s.setV_keepsRegsBut x _, s.setV_changesOnly x _⟩,
    ⟨_, exec_ldReg s x y, s.getV_setV_same x _, s.setV_keepsRegsBut x _, s.setV_changesOnly x _⟩⟩

/-- Settles O35: the exact sum is cut to its low byte by the one register write. -/
theorem addImmediateWraps : Obligations.AddImmediateWraps := by
  intro x nn s
  refine ⟨decodeWord_addImm x nn, _, exec_addImm s x nn, ?sum, s.setV_keepsRegsBut x _, s.setV_changesOnly x _⟩
  case sum => rw [State.getV_setV_same, BitVec.toNat_ofNat]

/-- Settles O36: each is one register write of a byte-wide operation, read bit by bit. -/
theorem bitwiseOperations : Obligations.BitwiseOperations := by
  intro x y s
  refine ⟨decodeWord_or x y, decodeWord_and x y, decodeWord_xor x y,
    ⟨_, exec_or s x y, s.setV_keepsRegsBut x _, s.setV_changesOnly x _, fun k => ?or⟩,
    ⟨_, exec_and s x y, s.setV_keepsRegsBut x _, s.setV_changesOnly x _, fun k => ?and⟩,
    ⟨_, exec_xor s x y, s.setV_keepsRegsBut x _, s.setV_changesOnly x _, fun k => ?xor⟩⟩
  case or => rw [State.getV_setV_same, BitVec.getLsbD_or]
  case and => rw [State.getV_setV_same, BitVec.getLsbD_and]
  case xor => rw [State.getV_setV_same, BitVec.getLsbD_xor]

/-- Settles O37: the two registers are the addends of one flagged sum. -/
theorem addSetsCarry : Obligations.AddSetsCarry := fun x y s =>
  ⟨decodeWord_addReg x y, _, exec_addReg s x y, s.setResultAndFlag_sum x (s.getV x) (s.getV y)⟩

end Sys2Proof
end

section
/-! SUPPORT. The block store of decimal digits and the copies to and from the RPL file: how their words decode, what each
of them answers, what memory reads afterwards and what stays unchanged (R57, R87, R194, R197, R198). -/

namespace Sys2Proof

@[simp] theorem decodeWord_ldBV (x : Nibble) : decodeWord (packXnn 0xF#4 x 0x33#8) = .ok (.ldBV x) := by simp [decodeF]
@[simp] theorem decodeWord_ldRV (x : Nibble) : decodeWord (packXnn 0xF#4 x 0x75#8) = .ok (.ldRV x) := by simp [decodeF]
@[simp] theorem decodeWord_ldVR (x : Nibble) : decodeWord (packXnn 0xF#4 x 0x85#8) = .ok (.ldVR x) := by simp [decodeF]

namespace Machine

/-! ## Blocks in memory -/

/-- Byte `k` of a block written at `a` reads back at `a + k`. -/
theorem Memory.read_putAll_add (m : Memory) (a : Nat) {vs : List Byte} {k : Nat} (h : k < vs.length) :
    (m.putAll a vs).read (a + k) = vs[k] := by
  rw [Memory.read_putAll, if_pos (by omega), Nat.add_sub_cancel_left, List.getD_eq_getElem _ _ h]

@[simp] theorem bcdDigits_length (v : Byte) : (bcdDigits v).length = 3 := rfl

/-- The three digits of a byte read back in order, most significant first. -/
theorem Memory.read_putAll_bcdDigits (m : Memory) (a : Nat) (v : Byte) :
    ((m.putAll a (bcdDigits v)).read a).toNat = v.toNat / 100 ∧
      ((m.putAll a (bcdDigits v)).read (a + 1)).toNat = v.toNat / 10 % 10 ∧
      ((m.putAll a (bcdDigits v)).read (a + 2)).toNat = v.toNat % 10 := by
  have hv := v.isLt
  have hdigit {k n : Nat} (hk : k < 3) (hn : n < 256) (he : (bcdDigits v)[k] = BitVec.ofNat 8 n) :
      ((m.putAll a (bcdDigits v)).read (a + k)).toNat = n := by
    rw [Memory.read_putAll_add m a hk, he, BitVec.toNat_ofNat, Nat.mod_eq_of_lt hn]
  exact ⟨hdigit (k := 0) (by decide) (by omega) rfl, hdigit (k := 1) (by decide) (by omega) rfl,
    hdigit (k := 2) (by decide) (by omega) rfl⟩

variable (s : State)

theorem keepsBytesOutside_putAll (a : Nat) (vs : List Byte) :
    KeepsBytesOutside a vs.length s { s with mem := s.mem.putAll a vs } := fun b hb => by
  rw [Memory.read_putAll, if_neg (by omega)]

/-! ## Frames (R129) -/

theorem changesOnly_mem (m : Memory) : ChangesOnly [.mem] s { s with mem := m } := by
  refine ⟨fun c hc => ?_, rfl, rfl⟩
  cases c
  case mem => simp at hc
  all_goals simp [Component.Same, State.getV, State.getRpl]

theorem changesOnly_rpl (regs : RegFile) : ChangesOnly [.rpl] s { s with rpl := regs } := by
  refine ⟨fun c hc => ?_, rfl, rfl⟩
  cases c
  case rpl => simp at hc
  all_goals simp [Component.Same, State.getV]

theorem State.raise_changesOnly (e : Fault) : ChangesOnly [.fault] s (s.raise e) := by
  refine ⟨fun c hc => ?_, rfl, rfl⟩
  cases c
  case fault => simp at hc
  all_goals simp [Component.Same]

/-! ## What the instructions answer -/

variable (x : Nibble)

theorem exec_ldBV_of_inMemory {s : State} (h : InMemory s.indexAddr 3) :
    exec (.ldBV x) s = .next { s with mem := s.mem.putAll s.indexAddr (bcdDigits (s.getV x)) } :=
  (execLdBV_eq x s).trans (if_pos h)

theorem exec_ldBV_of_not_inMemory {s : State} (h : ¬ InMemory s.indexAddr 3) :
    exec (.ldBV x) s = .next (s.raise (.addressError s.indexAddr 3)) :=
  (execLdBV_eq x s).trans (if_neg h)

theorem exec_ldRV : exec (.ldRV x) s = .next { s with rpl := s.rpl.copyFirst s.v x } := rfl

theorem exec_ldVR : exec (.ldVR x) s = .next { s with v := s.v.copyFirst s.rpl x } := rfl

end Machine

end Sys2Proof
end

section
/-! PROOFS. The obligations on the decimal digits and the RPL file. -/

namespace Sys2Proof

open Machine

/-- Settles O42: the three bytes from `I` lie in memory exactly when `I` is at most 0xFFD, and `bcdDigits` are the digits
in base ten. -/
theorem decimalDigitsAreStored : Obligations.DecimalDigitsAreStored := by
  intro x s
  refine ⟨decodeWord_ldBV x, fun hi => ?stored, fun hi => ?raised⟩
  case stored =>
    have hmem : InMemory s.indexAddr 3 := by simp only [InMemory, State.indexAddr]; omega
    obtain ⟨hundreds, tens, units⟩ := s.mem.read_putAll_bcdDigits s.indexAddr (s.getV x)
    exact ⟨_, _, _, _, exec_ldBV_of_inMemory x hmem, hundreds, tens, units, by omega, by omega, by omega, rfl,
      keepsBytesOutside_putAll s _ (bcdDigits _), changesOnly_mem s _⟩
  case raised =>
    have hmem : ¬ InMemory s.indexAddr 3 := by simp only [InMemory, State.indexAddr]; omega
    exact ⟨_, exec_ldBV_of_not_inMemory x hmem, rfl, s.raise_changesOnly _⟩

/-- Settles O45: both directions are one copy of a register prefix, read register by register. -/
theorem rplSavesAndRestores : Obligations.RplSavesAndRestores := fun x s =>
  ⟨decodeWord_ldRV x, decodeWord_ldVR x,
    ⟨_, exec_ldRV s x, getRpl_copyFirst s s.v x, changesOnly_rpl s _⟩,
    ⟨_, exec_ldVR s x, getV_copyFirst s s.rpl x, changesOnly_v s _⟩⟩

end Sys2Proof
end

section
/-! SUPPORT. The two timers: how the instructions on them decode and what each of them answers, what a write of a timer
and the host's tick leave unchanged, and when the sound is active (R34, R87, R114, R223 to R227). -/

namespace Sys2Proof

@[simp] theorem decodeWord_ldVDt (x : Nibble) : decodeWord (packXnn 0xF#4 x 0x07#8) = .ok (.ldVDt x) := by simp [decodeF]
@[simp] theorem decodeWord_ldDtV (x : Nibble) : decodeWord (packXnn 0xF#4 x 0x15#8) = .ok (.ldDtV x) := by simp [decodeF]
@[simp] theorem decodeWord_ldStV (x : Nibble) : decodeWord (packXnn 0xF#4 x 0x18#8) = .ok (.ldStV x) := by simp [decodeF]

namespace Machine

/-! ## The value of a counter -/

/-- Subtraction that stops at 0 is the rule's guard. -/
theorem countDown_toNat (b : Byte) : (countDown b).toNat = b.toNat - 1 := by
  have hb := b.isLt
  unfold countDown
  split
  · rw [BitVec.toNat_ofNat]; omega
  · omega

variable (s : State)

theorem State.soundActive_iff : s.soundActive = true ↔ s.st ≠ 0 := by
  rw [State.soundActive, decide_eq_true_iff, Nat.pos_iff_ne_zero, BitVec.toNat_ne]
  rfl

/-! ## Frames (R129) -/

theorem changesOnly_dt (b : Byte) : ChangesOnly [.dt] s { s with dt := b } := by
  refine ⟨fun c hc => ?_, rfl, rfl⟩
  cases c
  case dt => simp at hc
  all_goals simp [Component.Same, State.getV, State.getRpl]

theorem changesOnly_st (b : Byte) : ChangesOnly [.st] s { s with st := b } := by
  refine ⟨fun c hc => ?_, rfl, rfl⟩
  cases c
  case st => simp at hc
  all_goals simp [Component.Same, State.getV, State.getRpl]

theorem State.tick_changesOnly : ChangesOnly [.dt, .st] s s.tick := by
  refine ⟨fun c hc => ?_, rfl, rfl⟩
  cases c
  case dt | st => simp at hc
  all_goals simp [Component.Same]

/-! ## What the instructions and the tick answer -/

variable (x : Nibble)

theorem exec_ldVDt : exec (.ldVDt x) s = .next (s.setV x s.dt) := rfl

theorem exec_ldDtV : exec (.ldDtV x) s = .next { s with dt := s.getV x } := rfl

theorem exec_ldStV : exec (.ldStV x) s = .next { s with st := s.getV x } := rfl

theorem step_tick {s : State} {ts : List Transaction} (h : s.pending = .tick :: ts) :
    step s = .next (({ s with pending := ts } : State).tick.respond .none) := step_pending h

end Machine

end Sys2Proof
end

section
/-! PROOFS. The obligations on the timers. -/

namespace Sys2Proof

open Machine

/-- Settles O19: the step is the tick of the tuple, with only the host's list and response beside it. -/
theorem tickCountsBothTimersDown : Obligations.TickCountsBothTimersDown := by
  intro s ts h
  obtain ⟨hsame, -, hparams⟩ := s.tick_changesOnly
  exact ⟨_, step_tick h, countDown_toNat s.dt, countDown_toNat s.st, hsame, hparams, rfl⟩

/-- Settles O46: each is one write of a register or a timer, and the sound is read off the timer just written. -/
theorem timersAreReadAndSet : Obligations.TimersAreReadAndSet := fun x s =>
  ⟨decodeWord_ldVDt x, decodeWord_ldDtV x, decodeWord_ldStV x,
    ⟨_, exec_ldVDt s x, s.getV_setV_same x _, s.setV_keepsRegsBut x _, s.setV_changesOnly x _⟩,
    ⟨_, exec_ldDtV s x, rfl, changesOnly_dt s _⟩,
    ⟨_, exec_ldStV s x, rfl, State.soundActive_iff _, changesOnly_st s _⟩⟩

end Sys2Proof
end

section
/-! SUPPORT. The rest of the decoder's equations: the 0x0 family, the families whose low nibble is ignored, and every
other row of the map, so that the encoder and the decoder can be compared row by row (R84, R86 to R88, R96). -/

namespace Sys2Proof

variable (x y n : Nibble) (nn : Byte) (nnn : Addr)

/-! ## The 0x0 family (R84, D1) -/

theorem decodeWord_of_opOf_0 {w : Word} (h : opOf w = 0x0#4) : decodeWord w = .ok (decodeZero w) := by
  simp [decodeWord, h]

@[simp] theorem decodeWord_packXnn_0 : decodeWord (packXnn 0x0#4 x nn) = .ok (decodeZero (packXnn 0x0#4 x nn)) :=
  decodeWord_of_opOf_0 (opOf_packXnn ..)

@[simp] theorem decodeWord_packNnn_0 : decodeWord (packNnn 0x0#4 nnn) = .ok (decodeZero (packNnn 0x0#4 nnn)) :=
  decodeWord_of_opOf_0 (opOf_packNnn ..)

theorem decodeWord_cls : decodeWord (packXnn 0x0#4 x 0xE0#8) = .ok .cls := by simp [decodeZero]
theorem decodeWord_ret : decodeWord (packXnn 0x0#4 x 0xEE#8) = .ok .ret := by simp [decodeZero]
theorem decodeWord_scr : decodeWord (packXnn 0x0#4 x 0xFB#8) = .ok .scr := by simp [decodeZero]
theorem decodeWord_scl : decodeWord (packXnn 0x0#4 x 0xFC#8) = .ok .scl := by simp [decodeZero]
theorem decodeWord_exit : decodeWord (packXnn 0x0#4 x 0xFD#8) = .ok .exit := by simp [decodeZero]
theorem decodeWord_low : decodeWord (packXnn 0x0#4 x 0xFE#8) = .ok .low := by simp [decodeZero]
theorem decodeWord_high : decodeWord (packXnn 0x0#4 x 0xFF#8) = .ok .high := by simp [decodeZero]

/-- A low byte `Cn` is neither E0 nor EE, which the decoder asks first. -/
theorem decodeWord_scd : decodeWord (packXyn 0x0#4 x 0xC#4 n) = .ok (.scd n) := by
  have hE0 : (0xC#4 ++ n : Byte) ≠ 0xE0#8 := by revert n; decide
  have hEE : (0xC#4 ++ n : Byte) ≠ 0xEE#8 := by revert n; decide
  rw [decodeWord_of_opOf_0 (opOf_packXyn ..)]
  simp [decodeZero, hE0, hEE]

/-- A low byte that names no other row is SYS's. -/
theorem decodeWord_sys {nnn : Addr} (h : isNamedLowByte (nnn.extractLsb' 0 8) = false) :
    decodeWord (packNnn 0x0#4 nnn) = .ok (.sys nnn) := by
  have hC : (nnn.extractLsb' 0 8).extractLsb' 4 4 = nnn.extractLsb' 4 4 := by
    apply BitVec.eq_of_toNat_eq
    simp only [BitVec.extractLsb'_toNat, Nat.shiftRight_eq_div_pow]
    omega
  simp only [isNamedLowByte, hC, Bool.or_eq_false_iff, beq_eq_false_iff_ne, BitVec.ofNat_eq_ofNat,
    ne_eq] at h
  simp [decodeZero, h]

/-! ## Families whose low nibble is ignored (R88, D2) -/

@[simp] theorem decodeWord_seReg : decodeWord (packXyn 0x5#4 x y n) = .ok (.seReg x y) := by simp [decodeWord]
@[simp] theorem decodeWord_sneReg : decodeWord (packXyn 0x9#4 x y n) = .ok (.sneReg x y) := by simp [decodeWord]

/-! ## The other rows with a second level (R85 to R87) -/

@[simp] theorem decodeWord_shr : decodeWord (packXyn 0x8#4 x y 0x6#4) = .ok (.shr x y) := by simp [decodeEight]
@[simp] theorem decodeWord_shl : decodeWord (packXyn 0x8#4 x y 0xE#4) = .ok (.shl x y) := by simp [decodeEight]
@[simp] theorem decodeWord_skp : decodeWord (packXnn 0xE#4 x 0x9E#8) = .ok (.skp x) := by simp [decodeE]
@[simp] theorem decodeWord_sknp : decodeWord (packXnn 0xE#4 x 0xA1#8) = .ok (.sknp x) := by simp [decodeE]
@[simp] theorem decodeWord_ldVK : decodeWord (packXnn 0xF#4 x 0x0A#8) = .ok (.ldVK x) := by simp [decodeF]
@[simp] theorem decodeWord_addIV : decodeWord (packXnn 0xF#4 x 0x1E#8) = .ok (.addIV x) := by simp [decodeF]
@[simp] theorem decodeWord_ldFV : decodeWord (packXnn 0xF#4 x 0x29#8) = .ok (.ldFV x) := by simp [decodeF]
@[simp] theorem decodeWord_ldHfV : decodeWord (packXnn 0xF#4 x 0x30#8) = .ok (.ldHfV x) := by simp [decodeF]
@[simp] theorem decodeWord_ldMemV : decodeWord (packXnn 0xF#4 x 0x55#8) = .ok (.ldMemV x) := by simp [decodeF]
@[simp] theorem decodeWord_ldVMem : decodeWord (packXnn 0xF#4 x 0x65#8) = .ok (.ldVMem x) := by simp [decodeF]

/-! ## The encoder after the decoder's equations -/

/-- The encoder lays each row out as the decoder's equation for it reads it (R96, R97). -/
theorem decodeWord_encode {i : Instr} (h : i.wellFormed = true) : decodeWord (encode i) = .ok i := by
  cases i
  case cls => exact decodeWord_cls 0x0
  case ret => exact decodeWord_ret 0x0
  case scd n => exact decodeWord_scd 0x0 n
  case scr => exact decodeWord_scr 0x0
  case scl => exact decodeWord_scl 0x0
  case exit => exact decodeWord_exit 0x0
  case low => exact decodeWord_low 0x0
  case high => exact decodeWord_high 0x0
  case sys nnn => exact decodeWord_sys (by simpa [Instr.wellFormed] using h)
  all_goals simp [encode, decodeEight, decodeE, decodeF]

/-! ## Packed words from their fields -/

section Fields

variable {w : Word} {op : Nibble}

theorem packNnn_eq_of_opOf (h : opOf w = op) : packNnn op (nnnOf w) = w := by rw [← h, packNnn_fields]

theorem packXnn_eq_of_fields (h : opOf w = op) {nn : Byte} (hn : nnOf w = nn) : packXnn op (xOf w) nn = w := by
  rw [← h, ← hn, packXnn_fields]

theorem packXyn_eq_of_fields (h : opOf w = op) {n : Nibble} (hn : nOf w = n) :
    packXyn op (xOf w) (yOf w) n = w := by
  rw [← h, ← hn, packXyn_fields]

/-- The 0x0 rows ignore `w[11:8]`. -/
theorem packXnn_eq_and_F0FF (h : opOf w = op) {nn : Byte} (hn : nnOf w = nn) :
    packXnn op 0 nn = w &&& ~~~ 0x0F00#16 := by
  conv_rhs => rw [← packXnn_eq_of_fields h hn]
  exact (Laws.TableRow.packXnn_and_F0FF ..).symm

theorem packXyn_eq_packXnn : packXyn op x y n = packXnn op x (y ++ n) := by
  apply BitVec.eq_of_toNat_eq
  rw [packXyn_toNat, packXnn_toNat, BitVec.toNat_append, ← Nat.shiftLeft_add_eq_or_of_lt n.isLt, Nat.shiftLeft_eq]
  omega

/-- The 0x5 and 0x9 rows ignore the low nibble. -/
theorem packXyn_eq_and_FFF0 (h : opOf w = op) : packXyn op (xOf w) (yOf w) 0 = w &&& ~~~ 0x000F#16 := by
  conv_rhs => rw [← packXyn_eq_of_fields h rfl]
  apply BitVec.eq_of_getLsbD_eq
  intro i hi
  simp only [packXyn, BitVec.getLsbD_and, BitVec.getLsbD_append]
  interval_cases i <;> simp

end Fields

end Sys2Proof
end

section
/-! SUPPORT. The encoder after the decoder: what a word decodes to encodes back to that word with its ignored bits 0,
family by family (R84 to R88, R96, log 11). -/

namespace Sys2Proof

variable {w : Word} {i : Instr}

/-! ## Fields inside fields -/

theorem extractLsb'_nnnOf (w : Word) : (nnnOf w).extractLsb' 0 8 = nnOf w := by
  rw [← nnOf_packNnn (opOf w), packNnn_fields]

theorem extractLsb'_nnOf (w : Word) : (nnOf w).extractLsb' 4 4 = yOf w := by
  rw [← yOf_packXnn (opOf w) (xOf w), packXnn_fields]

theorem nnOf_eq_append (w : Word) : nnOf w = yOf w ++ nOf w := by
  rw [← nnOf_packXyn (opOf w) (xOf w), packXyn_fields]

theorem isNamedLowByte_eq_false_iff : ∀ nn : Byte, isNamedLowByte nn = false ↔
    nn.toNat ∉ [0xE0, 0xEE, 0xFB, 0xFC, 0xFD, 0xFE, 0xFF] ∧ nn.toNat / 16 ≠ 0xC := by decide

/-! ## The families -/

/-- The instruction is a reading of the word: one of the machine's, and its own word but for the ignored bits. -/
def Reads (w : Word) (i : Instr) : Prop := i.wellFormed = true ∧ encode i = w &&& ~~~ ignoredBits i

theorem Reads.of_eq (hwf : i.wellFormed = true) (hign : ignoredBits i = 0#16) (h : encode i = w) : Reads w i :=
  ⟨hwf, by rw [h, hign]; exact (BitVec.and_allOnes).symm⟩

theorem reads_decodeZero (hop : opOf w = 0x0#4) : Reads w (decodeZero w) := by
  have row {nn : Byte} (hn : nnOf w = nn) : packXnn 0x0 0x0 nn = w &&& ~~~ 0x0F00#16 := packXnn_eq_and_F0FF hop hn
  unfold decodeZero
  split_ifs with hE0 hEE hC hFB hFC hFD hFE hFF
  · exact ⟨rfl, row hE0⟩
  · exact ⟨rfl, row hEE⟩
  · refine ⟨rfl, Eq.trans ?_ (row rfl)⟩
    rw [nnOf_eq_append, hC]
    exact packXyn_eq_packXnn ..
  · exact ⟨rfl, row hFB⟩
  · exact ⟨rfl, row hFC⟩
  · exact ⟨rfl, row hFD⟩
  · exact ⟨rfl, row hFE⟩
  · exact ⟨rfl, row hFF⟩
  · refine .of_eq ?_ rfl (packNnn_eq_of_opOf hop)
    simp only [Instr.wellFormed, isNamedLowByte, extractLsb'_nnnOf, extractLsb'_nnOf, beq_false_of_ne hE0,
      beq_false_of_ne hEE, beq_false_of_ne hC, beq_false_of_ne hFB, beq_false_of_ne hFC, beq_false_of_ne hFD,
      beq_false_of_ne hFE, beq_false_of_ne hFF, Bool.or_self, Bool.not_false]

theorem reads_decodeEight (hop : opOf w = 0x8#4) (h : decodeEight w = .ok i) : Reads w i := by
  unfold decodeEight at h
  split at h
  case h_10 => cases h
  all_goals
    cases h
    exact .of_eq rfl rfl (packXyn_eq_of_fields hop ‹_›)

theorem reads_decodeE (hop : opOf w = 0xE#4) (h : decodeE w = .ok i) : Reads w i := by
  unfold decodeE at h
  split at h
  case h_3 => cases h
  all_goals
    cases h
    exact .of_eq rfl rfl (packXnn_eq_of_fields hop ‹_›)

theorem reads_decodeF (hop : opOf w = 0xF#4) (h : decodeF w = .ok i) : Reads w i := by
  unfold decodeF at h
  split at h
  case h_13 => cases h
  all_goals
    cases h
    exact .of_eq rfl rfl (packXnn_eq_of_fields hop ‹_›)

theorem reads_decodeWord (h : decodeWord w = .ok i) : Reads w i := by
  unfold decodeWord at h
  split at h
  case h_1 hop => cases h; exact reads_decodeZero hop
  case h_6 hop | h_10 hop => cases h; exact ⟨rfl, packXyn_eq_and_FFF0 hop⟩
  case h_2 hop | h_3 hop | h_11 hop | h_12 hop => cases h; exact .of_eq rfl rfl (packNnn_eq_of_opOf hop)
  case h_4 hop | h_5 hop | h_7 hop | h_8 hop | h_13 hop =>
    cases h; exact .of_eq rfl rfl (packXnn_eq_of_fields hop rfl)
  case h_14 hop => cases h; exact .of_eq rfl rfl (packXyn_eq_of_fields hop rfl)
  case h_9 hop => exact reads_decodeEight hop h
  case h_15 hop => exact reads_decodeE hop h
  case h_16 => exact reads_decodeF (by generalize opOf w = op at *; revert op; decide) h

end Sys2Proof
end

section
/-! PROOFS. The obligations on decoding and encoding. -/

namespace Sys2Proof

/-- Settles O2: the encoder lays each row out as the decoder reads it, and the bytes of a word make that word again. -/
theorem decodeOfEncodeIsTheInstruction : Obligations.DecodeOfEncodeIsTheInstruction := by
  intro i h
  refine ⟨decodeWord_encode h, fun rest => ?bytes⟩
  case bytes =>
    have hbytes := decode_bytesOfWord (encode i) rest
    rw [decodeWord_encode h] at hbytes
    exact hbytes

/-- Settles O3: each family reads back the fields it is packed from. -/
theorem encodeOfDecodeIsTheWord : Obligations.EncodeOfDecodeIsTheWord := fun _ _ h => reads_decodeWord h

/-- Settles O6: the fields that select are those the decoder's equations fix, whatever the ignored ones hold. -/
theorem ignoredBitsDoNotSelect : Obligations.IgnoredBitsDoNotSelect := by
  refine ⟨fun x n => ⟨decodeWord_cls x, decodeWord_ret x, decodeWord_scd x n, decodeWord_scr x, decodeWord_scl x,
    decodeWord_exit x, decodeWord_low x, decodeWord_high x⟩, fun nnn hlow hhigh => decodeWord_sys ?unnamed,
    fun x y n => ⟨decodeWord_seReg x y n, decodeWord_sneReg x y n⟩⟩
  case unnamed =>
    have hbyte : (nnn.extractLsb' 0 8).toNat = nnn.toNat % 256 := by simp
    rw [isNamedLowByte_eq_false_iff, hbyte]
    exact ⟨hlow, by omega⟩

/-- Settles O1: the decoder evaluates on each of the twelve words. -/
theorem writtenWordsDecode : Obligations.WrittenWordsDecode := by
  unfold Obligations.WrittenWordsDecode
  decide

end Sys2Proof
end

section
/-! SUPPORT. What each instruction may change: the frames of single updates, how frames compose, what the instructions
that may raise can answer, and one frame for every instruction (R24 to R40, R129, R271). -/

namespace Sys2Proof.Machine

/-! ## Frames compose (R129) -/

section Frames

variable {s t u : State} {changed changed' : List Component}

theorem ChangesOnly.refl (s : State) : ChangesOnly [] s s :=
  ⟨fun c _ => by cases c <;> simp [Component.Same], rfl, rfl⟩

theorem Component.Same.trans {c : Component} (h : c.Same s t) (h' : c.Same t u) : c.Same s u := by
  cases c
  case mem | v | rpl => exact fun a => (h' a).trans (h a)
  all_goals exact Eq.trans h' h

theorem ChangesOnly.trans (h : ChangesOnly changed s t) (h' : ChangesOnly changed' t u) :
    ChangesOnly (changed ++ changed') s u := by
  obtain ⟨hsame, hhost, hparams⟩ := h
  obtain ⟨hsame', hhost', hparams'⟩ := h'
  refine ⟨fun c hc => ?_, hhost'.trans hhost, hparams'.trans hparams⟩
  rw [List.mem_append, not_or] at hc
  exact (hsame c hc.1).trans (hsame' c hc.2)

theorem ChangesOnly.mono (h : ChangesOnly changed s t) (hsub : changed ⊆ changed') : ChangesOnly changed' s t := by
  obtain ⟨hsame, hhost, hparams⟩ := h
  exact ⟨fun c hc => hsame c (mt (@hsub c) hc), hhost, hparams⟩

end Frames

/-! ## Single updates -/

section Updates

variable (s : State)

theorem changesOnly_sp (p : Word) : ChangesOnly [.sp] s { s with sp := p } := by
  refine ⟨fun c hc => ?_, rfl, rfl⟩
  cases c
  case sp => simp at hc
  all_goals simp [Component.Same, State.getV, State.getRpl]

theorem changesOnly_mode (m : Mode) : ChangesOnly [.mode] s { s with mode := m } := by
  refine ⟨fun c hc => ?_, rfl, rfl⟩
  cases c
  case mode => simp at hc
  all_goals simp [Component.Same, State.getV, State.getRpl]

theorem changesOnly_fb (g : Framebuffer) : ChangesOnly [.fb] s { s with fb := g } := by
  refine ⟨fun c hc => ?_, rfl, rfl⟩
  cases c
  case fb => simp at hc
  all_goals simp [Component.Same, State.getV, State.getRpl]

theorem changesOnly_running (b : Bool) : ChangesOnly [.running] s { s with running := b } := by
  refine ⟨fun c hc => ?_, rfl, rfl⟩
  cases c
  case running => simp at hc
  all_goals simp [Component.Same, State.getV, State.getRpl]

theorem changesOnly_await (x : Option Nibble) : ChangesOnly [.await] s { s with await := x } := by
  refine ⟨fun c hc => ?_, rfl, rfl⟩
  cases c
  case await => simp at hc
  all_goals simp [Component.Same, State.getV, State.getRpl]

theorem State.selectMode_changesOnly (m : Mode) : ChangesOnly [.mode, .fb] s (s.selectMode m) :=
  (changesOnly_mode s m).trans (changesOnly_fb _ (Framebuffer.blank m))

theorem State.drawSprite_changesOnly (x y : Nibble) (rows cols : Nat) (data : List Nat) :
    ChangesOnly [.v, .fb] s (s.drawSprite x y rows cols data) :=
  ((changesOnly_fb s _).trans (State.setV_changesOnly _ vf _)).mono (by decide)

theorem State.drawn_changesOnly (x y n : Nibble) : ChangesOnly [.v, .fb] s (s.drawn x y n) := by
  unfold State.drawn
  split
  · exact s.drawSprite_changesOnly ..
  · exact s.drawSprite_changesOnly ..

/-- The state CALL leads to when the stack has room (R145). -/
def State.called (s : State) (nnn : Addr) : State :=
  { s.setPc nnn.toNat with
    mem := s.mem.putAll s.pushAddr [BitVec.ofNat 8 (s.pc.toNat % 256), BitVec.ofNat 8 (s.pc.toNat / 256)]
    sp := s.sp + 1 + 1 }

theorem State.called_changesOnly (nnn : Addr) : ChangesOnly [.mem, .sp, .pc] s (s.called nnn) :=
  (((s.setPc_changesOnly nnn.toNat).trans (changesOnly_mem _ _)).trans (changesOnly_sp _ _)).mono (by decide)

/-- The state RET leads to when the stack is not empty (R141). -/
def State.returned (s : State) : State :=
  { s.setPc ((s.mem.read (s.sp.toNat - 1)).toNat * 256 + (s.mem.read (s.sp.toNat - 2)).toNat) with sp := s.sp - 2 }

theorem State.returned_changesOnly : ChangesOnly [.pc, .sp] s s.returned :=
  (s.setPc_changesOnly _).trans (changesOnly_sp _ _)

end Updates

/-! ## What the instructions that may raise can answer -/

section Raising

variable {s t : State}

/-- An answer that is one of two next states is the one its condition picks. -/
theorem next_ite_cases {c : Prop} [Decidable c] {u v : State}
    (h : (if c then .next u else .next v : Result) = .next t) : (c ∧ t = u) ∨ (¬ c ∧ t = v) := by
  split at h
  · next hc => cases h; exact .inl ⟨hc, rfl⟩
  · next hc => cases h; exact .inr ⟨hc, rfl⟩

/-- Beyond the end of memory, where R43 never lets `sp` be, one of RET's two reads raises (log 10). -/
theorem execRet_of_beyond (h : 4096 < s.sp.toNat) :
    execRet s = .next (s.raise (.addressError (if s.sp.toNat = 4097 then 4096 else s.sp.toNat - 2) 1)) := by
  unfold execRet
  rw [if_neg (show ¬ s.sp.toNat < Config.stackBase + 2 by simp only [Config.stackBase]; omega)]
  simp only [Memory.read8_eq, State.popAddr, InMemory]
  by_cases hsp : s.sp.toNat = 4097
  · rw [hsp]; rfl
  · rw [if_neg (show ¬ s.sp.toNat - 2 + 1 ≤ 4096 by omega), if_neg hsp]; rfl

theorem exec_ret_of_room (h : 0x054 ≤ s.sp.toNat) (h' : s.sp.toNat ≤ 4096) : exec .ret s = .next s.returned :=
  (execRet_eq h').trans (if_neg (by omega))

theorem exec_ret_of_empty (h : s.sp.toNat < 0x054) :
    exec .ret s = .next (s.raise (.addressError (s.sp.toNat - 2) 2)) :=
  (execRet_eq (by omega)).trans (if_pos h)

theorem exec_ret_cases (h : exec .ret s = .next t) :
    (∃ e, t = s.raise e) ∨ (0x054 ≤ s.sp.toNat ∧ s.sp.toNat ≤ 4096 ∧ t = s.returned) := by
  rcases Nat.lt_or_ge s.sp.toNat 0x054 with hempty | hroom
  · rw [exec_ret_of_empty hempty] at h
    cases h; exact .inl ⟨_, rfl⟩
  rcases Nat.lt_or_ge 4096 s.sp.toNat with hbeyond | hin
  · cases (execRet_of_beyond hbeyond).symm.trans h; exact .inl ⟨_, rfl⟩
  · rw [exec_ret_of_room hroom hin] at h
    cases h; exact .inr ⟨hroom, hin, rfl⟩

theorem exec_call_of_room {nnn : Addr} (h : s.sp.toNat + 2 ≤ s.params.stackEnd) :
    exec (.call nnn) s = .next (s.called nnn) :=
  (execCall_eq nnn s).trans (if_neg (by omega))

theorem exec_call_of_full {nnn : Addr} (h : s.params.stackEnd < s.sp.toNat + 2) :
    exec (.call nnn) s = .next (s.raise (.addressError s.sp.toNat 2)) :=
  (execCall_eq nnn s).trans (if_pos h)

theorem exec_call_cases {nnn : Addr} (h : exec (.call nnn) s = .next t) :
    (∃ e, t = s.raise e) ∨ (s.sp.toNat + 2 ≤ s.params.stackEnd ∧ t = s.called nnn) :=
  (next_ite_cases ((execCall_eq nnn s).symm.trans h)).imp (fun ⟨_, ht⟩ => ⟨_, ht⟩)
    fun ⟨hroom, ht⟩ => ⟨Nat.not_lt.mp hroom, ht⟩

variable {x y n : Nibble}

theorem exec_ldBV_cases (h : exec (.ldBV x) s = .next t) :
    (∃ e, t = s.raise e) ∨
      (InMemory s.indexAddr 3 ∧ t = { s with mem := s.mem.putAll s.indexAddr (bcdDigits (s.getV x)) }) :=
  (next_ite_cases ((execLdBV_eq x s).symm.trans h)).symm.imp (fun ⟨_, ht⟩ => ⟨_, ht⟩) id

theorem exec_ldMemV_of_inMemory (h : InMemory s.indexAddr (x.toNat + 1)) :
    exec (.ldMemV x) s = .next { s with mem := s.mem.putAll s.indexAddr (s.firstRegs x) } :=
  (execLdMemV_eq x s).trans (if_pos h)

theorem exec_ldMemV_of_not_inMemory (h : ¬ InMemory s.indexAddr (x.toNat + 1)) :
    exec (.ldMemV x) s = .next (s.raise (.addressError s.indexAddr (x.toNat + 1))) :=
  (execLdMemV_eq x s).trans (if_neg h)

theorem exec_ldMemV_cases (h : exec (.ldMemV x) s = .next t) :
    (∃ e, t = s.raise e) ∨ (InMemory s.indexAddr (x.toNat + 1) ∧
      t = { s with mem := s.mem.putAll s.indexAddr (s.firstRegs x) }) :=
  (next_ite_cases ((execLdMemV_eq x s).symm.trans h)).symm.imp (fun ⟨_, ht⟩ => ⟨_, ht⟩) id

/-- The state LD Vx, [I] leads to when its bytes are in memory (R196). -/
def State.loaded (s : State) (x : Nibble) : State :=
  { s with v := s.v.loadList ((List.range (x.toNat + 1)).map fun k => s.mem.read (s.indexAddr + k)) }

theorem State.loaded_changesOnly (s : State) (x : Nibble) : ChangesOnly [.v] s (s.loaded x) := changesOnly_v s _

theorem exec_ldVMem_of_inMemory (h : InMemory s.indexAddr (x.toNat + 1)) :
    exec (.ldVMem x) s = .next (s.loaded x) := (execLdVMem_eq x s).trans (if_pos h)

theorem exec_ldVMem_of_not_inMemory (h : ¬ InMemory s.indexAddr (x.toNat + 1)) :
    exec (.ldVMem x) s = .next (s.raise (.addressError s.indexAddr (x.toNat + 1))) :=
  (execLdVMem_eq x s).trans (if_neg h)

theorem exec_ldVMem_cases (h : exec (.ldVMem x) s = .next t) : (∃ e, t = s.raise e) ∨ t = s.loaded x :=
  (next_ite_cases ((execLdVMem_eq x s).symm.trans h)).symm.imp (fun ⟨_, ht⟩ => ⟨_, ht⟩) And.right

theorem exec_drw_of_inMemory (h : drwLength s.mode n = 0 ∨ InMemory s.indexAddr (drwLength s.mode n)) :
    exec (.drw x y n) s = .next (s.drawn x y n) := (execDrw_eq x y n s).trans (if_pos h)

theorem exec_drw_of_not_inMemory (h : ¬ (drwLength s.mode n = 0 ∨ InMemory s.indexAddr (drwLength s.mode n))) :
    exec (.drw x y n) s = .next (s.raise (.addressError s.indexAddr (drwLength s.mode n))) :=
  (execDrw_eq x y n s).trans (if_neg h)

theorem exec_drw_cases (h : exec (.drw x y n) s = .next t) : (∃ e, t = s.raise e) ∨ t = s.drawn x y n :=
  (next_ite_cases ((execDrw_eq x y n s).symm.trans h)).symm.imp (fun ⟨_, ht⟩ => ⟨_, ht⟩) And.right

end Raising

/-! ## Every instruction -/

/-- The components an instruction may change; `fault` in those of R271 (R24 to R40, R129). -/
def mayChange : Instr → List Component
  | .cls | .scd _ | .scr | .scl => [.fb]
  | .low | .high => [.mode, .fb]
  | .ret => [.fault, .pc, .sp]
  | .call _ => [.fault, .mem, .sp, .pc]
  | .jp _ | .jpI _ | .seImm _ _ | .sneImm _ _ | .seReg _ _ | .sneReg _ _ | .skp _ | .sknp _ => [.pc]
  | .exit => [.running]
  | .sys _ => []
  | .ldImm _ _ | .addImm _ _ | .ldReg _ _ | .or _ _ | .and _ _ | .xor _ _ | .rnd _ _ | .ldVDt _ | .ldVR _ => [.v]
  | .addReg _ _ | .sub _ _ | .shr _ _ | .subn _ _ | .shl _ _ => [.v]
  | .ldI _ | .addIV _ | .ldFV _ | .ldHfV _ => [.i]
  | .drw _ _ _ => [.fault, .v, .fb]
  | .ldBV _ | .ldMemV _ => [.fault, .mem]
  | .ldVMem _ => [.fault, .v]
  | .ldRV _ => [.rpl]
  | .ldVK _ => [.await]
  | .ldDtV _ => [.dt]
  | .ldStV _ => [.st]

theorem State.raise_changesOnly_cons (s : State) (e : Fault) (changed : List Component) :
    ChangesOnly (.fault :: changed) s (s.raise e) := (s.raise_changesOnly e).mono (by simp)

/-- The frame of every instruction (R129). -/
theorem exec_changesOnly {i : Instr} {s t : State} (h : exec i s = .next t) : ChangesOnly (mayChange i) s t := by
  cases i
  case sys => cases h; exact .refl s
  case cls | scd | scr | scl => cases h; exact changesOnly_fb s _
  case low | high => cases h; exact s.selectMode_changesOnly _
  case exit => cases h; exact changesOnly_running s _
  case jp | jpI | seImm | sneImm | seReg | sneReg | skp | sknp => cases h; exact changesOnly_pc s _
  case ldImm | addImm | ldReg | or | and | xor | rnd | ldVDt | ldVR | addReg | sub | shr | subn | shl =>
    cases h; exact changesOnly_v s _
  case ldI | addIV | ldFV | ldHfV => cases h; exact changesOnly_i s _
  case ldRV => cases h; exact changesOnly_rpl s _
  case ldVK => cases h; exact changesOnly_await s _
  case ldDtV => cases h; exact changesOnly_dt s _
  case ldStV => cases h; exact changesOnly_st s _
  case ret =>
    obtain ⟨e, rfl⟩ | ⟨-, -, rfl⟩ := exec_ret_cases h
    · exact s.raise_changesOnly_cons ..
    · exact s.returned_changesOnly.mono (List.subset_cons_self ..)
  case call =>
    obtain ⟨e, rfl⟩ | ⟨-, rfl⟩ := exec_call_cases h
    · exact s.raise_changesOnly_cons ..
    · exact (s.called_changesOnly _).mono (List.subset_cons_self ..)
  case drw =>
    obtain ⟨e, rfl⟩ | rfl := exec_drw_cases h
    · exact s.raise_changesOnly_cons ..
    · exact (s.drawn_changesOnly ..).mono (List.subset_cons_self ..)
  case ldBV =>
    obtain ⟨e, rfl⟩ | ⟨-, rfl⟩ := exec_ldBV_cases h
    · exact s.raise_changesOnly_cons ..
    · exact (changesOnly_mem s _).mono (List.subset_cons_self ..)
  case ldMemV =>
    obtain ⟨e, rfl⟩ | ⟨-, rfl⟩ := exec_ldMemV_cases h
    · exact s.raise_changesOnly_cons ..
    · exact (changesOnly_mem s _).mono (List.subset_cons_self ..)
  case ldVMem =>
    obtain ⟨e, rfl⟩ | rfl := exec_ldVMem_cases h
    · exact s.raise_changesOnly_cons ..
    · exact (s.loaded_changesOnly _).mono (List.subset_cons_self ..)

section

variable {i : Instr} {s t : State} {c : Component}

theorem exec_same (h : exec i s = .next t) (hc : c ∉ mayChange i) : c.Same s t := (exec_changesOnly h).1 c hc

theorem exec_toHostSide (h : exec i s = .next t) : t.toHostSide = s.toHostSide := (exec_changesOnly h).2.1

theorem exec_params (h : exec i s = .next t) : t.params = s.params := (exec_changesOnly h).2.2

/-- A component that an instruction changes is one it may change. -/
theorem mem_mayChange_of_not_same (h : exec i s = .next t) (hc : ¬ c.Same s t) : c ∈ mayChange i :=
  not_imp_comm.mp (exec_same h) hc

end

end Sys2Proof.Machine
end

section
/-! SUPPORT. What an instruction does to memory, to the stack pointer, to the picture and to the stop states, for the
invariant of R43; then what a whole step does to it (R43, R62, R118). -/

namespace Sys2Proof.Machine

/-! ## Memory (R62, R64) -/

section Memory

variable {i : Instr} {s t : State}

theorem State.drawn_mem (s : State) (x y n : Nibble) : (s.drawn x y n).mem = s.mem := by
  unfold State.drawn
  split
  · rfl
  · rfl

/-- An instruction leaves memory alone or writes exactly the bytes it stores to. -/
theorem exec_mem (h : exec i s = .next t) :
    t.mem = s.mem ∨ ∃ vs, vs.length = (storesTo s i).2 ∧ (storesTo s i).1 + vs.length ≤ 4096 ∧
      t.mem = s.mem.putAll (storesTo s i).1 vs := by
  cases i
  case call nnn =>
    obtain ⟨e, rfl⟩ | ⟨hroom, rfl⟩ := exec_call_cases h
    · exact .inl rfl
    · exact .inr ⟨[_, _], rfl, hroom.trans s.params.stackEnd_le, rfl⟩
  case ldBV x =>
    obtain ⟨e, rfl⟩ | ⟨hin, rfl⟩ := exec_ldBV_cases h
    · exact .inl rfl
    · exact .inr ⟨_, bcdDigits_length _, hin, rfl⟩
  case ldMemV x =>
    obtain ⟨e, rfl⟩ | ⟨hin, rfl⟩ := exec_ldMemV_cases h
    · exact .inl rfl
    · have hlen := s.firstRegs_length x
      exact .inr ⟨_, hlen, by rw [hlen]; exact hin, rfl⟩
  case ret =>
    obtain ⟨e, rfl⟩ | ⟨-, -, rfl⟩ := exec_ret_cases h
    · exact .inl rfl
    · exact .inl rfl
  case ldVMem =>
    obtain ⟨e, rfl⟩ | rfl := exec_ldVMem_cases h
    · exact .inl rfl
    · exact .inl rfl
  case drw =>
    obtain ⟨e, rfl⟩ | rfl := exec_drw_cases h
    · exact .inl rfl
    · exact .inl (s.drawn_mem ..)
  all_goals cases h; exact .inl rfl

theorem exec_mem_wf (h : exec i s = .next t) (hm : s.mem.wf = true) : t.mem.wf = true := by
  obtain hmem | ⟨vs, -, hin, hmem⟩ := exec_mem h
  · rw [hmem]; exact hm
  · rw [hmem]; exact Memory.wf_putAll vs hm hin

end Memory

/-! ## The stack pointer (R30, R43) -/

section StackPointer

variable {s t : State}

theorem State.SpInRegion.le_memSize (h : s.SpInRegion) : s.sp.toNat ≤ 4096 := h.2.1.trans s.params.stackEnd_le

theorem State.SpInRegion.of_eq (h : s.SpInRegion) (hsp : t.sp = s.sp) (hparams : t.params = s.params) :
    t.SpInRegion := by
  unfold State.SpInRegion; rw [hsp, hparams]; exact h

theorem State.called_sp (s : State) (nnn : Addr) (h : s.sp.toNat + 2 ≤ s.params.stackEnd) :
    (s.called nnn).sp.toNat = s.sp.toNat + 2 := by
  have := s.params.stackEnd_le
  change (s.sp + 1#16 + 1#16).toNat = _
  simp only [BitVec.toNat_add, BitVec.toNat_ofNat]
  omega

theorem State.returned_sp (s : State) (h : 2 ≤ s.sp.toNat) : s.returned.sp.toNat = s.sp.toNat - 2 := by
  have := s.sp.isLt
  change (s.sp - 2#16).toNat = _
  simp only [BitVec.toNat_sub, BitVec.toNat_ofNat]
  omega

theorem State.SpInRegion.called (h : s.SpInRegion) {nnn : Addr} (hroom : s.sp.toNat + 2 ≤ s.params.stackEnd) :
    (s.called nnn).SpInRegion := by
  obtain ⟨hbase, -, heven⟩ := h
  have hsp := s.called_sp nnn hroom
  refine ⟨?_, ?_, ?_⟩
  · omega
  · exact hsp.trans_le hroom
  · rw [hsp]; omega

theorem State.SpInRegion.returned (h : s.SpInRegion) (hroom : 0x054 ≤ s.sp.toNat) : s.returned.SpInRegion := by
  obtain ⟨-, hend, heven⟩ := h
  have hsp := s.returned_sp (by omega)
  simp only [Config.stackBase] at heven
  refine ⟨?_, ?_, ?_⟩
  · rw [hsp]; simp only [Config.stackBase]; omega
  · exact hsp.trans_le ((Nat.sub_le _ 2).trans hend)
  · rw [hsp]; simp only [Config.stackBase]; omega

theorem exec_spInRegion {i : Instr} (h : exec i s = .next t) (hs : s.SpInRegion) : t.SpInRegion := by
  have keep (hi : Component.sp ∉ mayChange i) : t.SpInRegion := hs.of_eq (exec_same h hi) (exec_params h)
  cases i
  case ret =>
    obtain ⟨e, rfl⟩ | ⟨hroom, -, rfl⟩ := exec_ret_cases h
    · exact hs
    · exact hs.returned hroom
  case call =>
    obtain ⟨e, rfl⟩ | ⟨hroom, rfl⟩ := exec_call_cases h
    · exact hs
    · exact hs.called hroom
  all_goals exact keep (by simp [mayChange])

end StackPointer

/-! ## The picture (R36, R43) -/

section Picture

variable {s t : State}

/-- A sprite of at most 16 rows and columns fits both grids. -/
theorem sprite_fits (m : Mode) {rows cols : Nat} (hr : rows ≤ 16) (hc : cols ≤ 16) :
    rows ≤ m.height ∧ cols ≤ m.width := by
  cases m <;> simp only [Mode.height, Mode.width] <;> omega

theorem State.FbSized.drawSprite (h : s.FbSized) (x y : Nibble) {rows cols : Nat} (data : List Nat) (hr : rows ≤ 16)
    (hc : cols ≤ 16) : (s.drawSprite x y rows cols data).FbSized := by
  obtain ⟨hrows, hcols⟩ := sprite_fits s.mode hr hc
  exact (blit_spec s.mode (s.getV x).toNat (s.getV y).toNat data s.fb hrows hcols h).1

theorem State.FbSized.drawn (h : s.FbSized) (x y n : Nibble) : (s.drawn x y n).FbSized := by
  have := n.isLt
  unfold State.drawn
  split
  · exact h.drawSprite x y _ (by omega) (by omega)
  · exact h.drawSprite x y _ (by omega) (by omega)

theorem exec_fbSized {i : Instr} (h : exec i s = .next t) (hs : s.FbSized) : t.FbSized := by
  have keep (hfb : Component.fb ∉ mayChange i) (hmode : Component.mode ∉ mayChange i) : t.FbSized := by
    unfold State.FbSized
    rw [show t.fb = s.fb from exec_same h hfb, show t.mode = s.mode from exec_same h hmode]
    exact hs
  cases i
  case cls | scd | scr | scl => cases h; exact Framebuffer.sized_tabulate s.mode _
  case low | high => cases h; exact Framebuffer.sized_blank _
  case drw =>
    obtain ⟨e, rfl⟩ | rfl := exec_drw_cases h
    · exact hs
    · exact hs.drawn ..
  all_goals exact keep (by simp [mayChange]) (by simp [mayChange])

end Picture

/-! ## The stop states (R43) -/

theorem running_mem_mayChange {i : Instr} (h : Component.running ∈ mayChange i) : i = .exit := by
  cases i
  case exit => rfl
  all_goals simp [mayChange] at h

/-- EXIT is the only instruction that stops the core, and it begins no key wait. -/
theorem exec_waitsOnlyRunning {i : Instr} {s t : State} (h : exec i s = .next t) (hs : s.Running)
    (hfault : t.fault = none) : t.WaitsOnlyRunning := by
  obtain ⟨-, hrunning, hawait⟩ := hs
  refine fun hwait => ⟨hfault, ?_⟩
  by_contra hstop
  have hexit : i = .exit := running_mem_mayChange <| mem_mayChange_of_not_same h fun hsame =>
    hstop (Eq.trans hsame hrunning)
  subst hexit
  cases h
  exact hwait hawait

/-- An instruction of a running core that raises nothing keeps the invariant. -/
theorem exec_inv {i : Instr} {s t : State} (h : exec i s = .next t) (hs : s.Inv) (hrun : s.Running)
    (hfault : t.fault = none) : t.Inv := by
  obtain ⟨hmem, hsp, hfb, -⟩ := hs
  exact ⟨exec_mem_wf h hmem, exec_spInRegion h hsp, exec_fbSized h hfb, exec_waitsOnlyRunning h hrun hfault⟩

/-! ## The step (R113, R118) -/

section Step

variable {s t : State}

/-- A failed step of a core that waits for no key keeps the invariant. -/
theorem State.Inv.fail (h : s.Inv) (hrun : s.Running) (e : Fault) : (s.fail e).Inv := by
  obtain ⟨hmem, hsp, hfb, -⟩ := h
  obtain ⟨-, -, hawait⟩ := hrun
  exact ⟨hmem, hsp, hfb, fun hwait => absurd hawait hwait⟩

theorem runWord_inv {s1 : State} {w : Word} (h : runWord s s1 w = .next t) (hs : s.Inv) (hrun : s.Running)
    (hs1 : s1.Inv) (hrun1 : s1.Running) : t.Inv := by
  cases hd : decodeWord w with
  | error r =>
    rw [runWord_error hd] at h
    cases h
    exact hs.fail hrun _
  | ok i =>
    obtain ⟨u, hu⟩ := exec_isNext i s1
    rw [runWord_ok hd, hu] at h
    cases hf : u.fault with
    | some e =>
      rw [finishStep_raised hf] at h
      cases h
      exact hs.fail hrun _
    | none =>
      rw [finishStep_done hf] at h
      cases h
      exact (exec_inv hu hs1 hrun1 hf : u.Inv)

theorem runStep_inv {o : Option Word} (h : runStep s o = .next t) (hs : s.Inv) (hrun : s.Running) : t.Inv := by
  cases o with
  | some w => exact runWord_inv h hs hrun hs hrun
  | none =>
    by_cases hpc : s.pc = 0xFFF
    · rw [runStep_fetchFault hpc] at h
      cases h
      exact hs.fail hrun _
    · rw [runStep_fetched hpc] at h
      exact runWord_inv h hs hrun hs hrun

theorem stepTransaction_inv {o k : Option Word} {b : Option Byte} (h : stepTransaction o k b s = .next t)
    (hs : s.Inv) : t.Inv := by
  cases hstop : s.stopStatus with
  | some st =>
    rw [stepTransaction_stopped hstop] at h
    cases h
    exact hs
  | none =>
    have hrun := State.stopStatus_eq_none hstop
    rw [stepTransaction_running hrun] at h
    exact runStep_inv h hs hrun

end Step

/-! ## The other transactions (R111, R112, R115, R116) -/

section Transactions

variable {s t : State}

theorem State.inv_reset : State.reset.Inv := by
  refine ⟨rfl, ⟨le_refl _, ?_, rfl⟩, Framebuffer.sized_blank .normal, fun h => absurd rfl h⟩
  exact le_trans (show 0x052 ≤ 0x054 by decide) Config.params.le_stackEnd

theorem resetTransaction_inv (s : State) : (resetTransaction s).Inv := by
  obtain ⟨hmem, ⟨hbase, -, heven⟩, hfb, hwait⟩ := State.inv_reset
  exact ⟨hmem, ⟨hbase, le_trans (show 0x052 ≤ 0x054 by decide) s.params.le_stackEnd, heven⟩, hfb, hwait⟩

theorem loadTransaction_inv {a : Nat} {bs : List Byte} (h : loadTransaction a bs s = .next t) (hs : s.Inv) :
    t.Inv := by
  unfold loadTransaction at h
  split at h
  · cases h
  · cases hw : s.mem.writeBlock a bs with
    | error e =>
      simp only [hw] at h
      cases h
      exact hs
    | ok m =>
      simp only [hw] at h
      cases h
      obtain ⟨hmem, hrest⟩ := hs
      exact ⟨Memory.wf_writeBlock hw hmem, hrest⟩

theorem State.keyPress_of_waiting {x : Nibble} (hf : s.fault = none) (hr : s.running = true)
    (ha : s.await = some x) (k : Nibble) :
    s.keyPress k = { s.setV x (BitVec.ofNat 8 k.toNat) with await := none } := by
  simp only [State.keyPress, hf, hr, ha]

/-- Outside a key wait the event is lost (R115). -/
theorem State.keyPress_of_not_waiting (h : s.fault ≠ none ∨ s.running = false ∨ s.await = none) (k : Nibble) :
    s.keyPress k = s := by
  unfold State.keyPress
  split
  · next hf hr ha => simp [hf, hr, ha] at h
  · rfl

theorem State.Inv.keyPress (hs : s.Inv) (k : Nibble) : (s.keyPress k).Inv := by
  by_cases h : s.fault ≠ none ∨ s.running = false ∨ s.await = none
  · rw [State.keyPress_of_not_waiting h]
    exact hs
  · simp only [not_or, not_not, Bool.not_eq_false] at h
    obtain ⟨hf, hr, ha⟩ := h
    obtain ⟨x, hx⟩ := Option.ne_none_iff_exists'.mp ha
    obtain ⟨hmem, hsp, hfb, -⟩ := hs
    rw [State.keyPress_of_waiting hf hr hx]
    exact ⟨hmem, hsp, hfb, fun hwait => absurd rfl hwait⟩

theorem Params.spAllowed_iff (p : Params) (v : Nat) :
    Params.spAllowed p v = true ↔ Config.stackBase ≤ v ∧ v ≤ p.stackEnd ∧ (v - Config.stackBase) % 2 = 0 := by
  simp [Params.spAllowed, and_assoc]

/-- A value `setReg(sp, v)` stores is one the register holds whole. -/
theorem toNat_ofNat_of_spAllowed {p : Params} {v : Nat} (h : Params.spAllowed p v = true) :
    (BitVec.ofNat 16 v).toNat = v := by
  obtain ⟨-, hend, -⟩ := (Params.spAllowed_iff p v).mp h
  have := p.stackEnd_le
  rw [BitVec.toNat_ofNat]
  omega

theorem setRegTransaction_sp_of_allowed {v : Nat} (h : Params.spAllowed s.params v = true) :
    setRegTransaction .sp v s = ({ s with sp := BitVec.ofNat 16 v } : State).respond .none := if_pos h

theorem setRegTransaction_sp_of_not_allowed {v : Nat} (h : ¬ Params.spAllowed s.params v = true) :
    setRegTransaction .sp v s = s.respond .setRefused := if_neg h

theorem setRegTransaction_inv (hs : s.Inv) (r : RegName) (v : Nat) : (setRegTransaction r v s).Inv := by
  cases r
  case sp =>
    by_cases hv : Params.spAllowed s.params v = true
    · rw [setRegTransaction_sp_of_allowed hv]
      obtain ⟨hmem, -, hrest⟩ := hs
      have hregion := (Params.spAllowed_iff s.params v).mp hv
      rw [← toNat_ofNat_of_spAllowed hv] at hregion
      exact ⟨hmem, hregion, hrest⟩
    · rw [setRegTransaction_sp_of_not_allowed hv]
      exact hs
  all_goals exact hs

/-- Every transaction keeps the invariant (R43, R110). -/
theorem perform_inv {tr : Transaction} (h : perform tr s = .next t) (hs : s.Inv) : t.Inv := by
  cases tr with
  | reset => cases h; exact resetTransaction_inv s
  | load a bs => exact loadTransaction_inv h hs
  | step o k b => exact stepTransaction_inv h hs
  | tick => cases h; exact hs
  | keyPress k => cases h; exact hs.keyPress k
  | observe => cases h; exact hs
  | getReg r => cases h; exact hs
  | setReg r v => cases h; exact setRegTransaction_inv hs r v

end Transactions

end Sys2Proof.Machine
end

section
/-! PROOFS. The obligations on the invariant. -/

namespace Sys2Proof

open Machine

/-- Settles O11: the step performs one transaction, and each of them keeps the invariant. -/
theorem stepKeepsInvariant : Obligations.StepKeepsInvariant := by
  intro s t hs h
  cases hp : s.pending with
  | nil => rw [step_empty hp] at h; exact stepTransaction_inv h hs
  | cons tr ts => rw [step_pending hp] at h; exact perform_inv h hs

/-- Settles O10: the stack is empty at its base and the picture is the blank one. -/
theorem resetMeetsInvariant : Obligations.ResetMeetsInvariant := State.inv_reset

end Sys2Proof
end

section
/-! SUPPORT. The errors of the execute phase, the writers of the registers and of `pc`, and the updates of the inputs that
no instruction but their readers sees (R16, R24, R27, R271). -/

namespace Sys2Proof.Machine

/-! ## Errors (R271) -/

section Errors

variable {i : Instr} {s t : State} {a n : Nat} {e : Fault}

theorem blockError_eq_none_iff : blockError a n = none ↔ n = 0 ∨ InMemory a n := by
  unfold blockError
  split <;> simp [*]

theorem blockError_eq_some_iff :
    blockError a n = some e ↔ ¬ (n = 0 ∨ InMemory a n) ∧ e = .addressError a n := by
  unfold blockError
  split
  · next h => simp [h]
  · next h => simp [h, eq_comm]

/-- A block of one byte or more raises exactly where it leaves memory. -/
theorem blockError_succ_eq_some_iff :
    blockError a (n + 1) = some e ↔ ¬ InMemory a (n + 1) ∧ e = .addressError a (n + 1) := by
  simp [blockError_eq_some_iff]

theorem blockError_succ_eq_none_iff : blockError a (n + 1) = none ↔ InMemory a (n + 1) := by
  simp [blockError_eq_none_iff]

/-- An instruction the table gives an error latches it and does nothing else. -/
theorem exec_of_raisedError (h : raisedError s i = some e) : exec i s = .next (s.raise e) := by
  cases i
  case call =>
    simp only [raisedError, Option.ite_none_right_eq_some, Option.some.injEq] at h
    obtain ⟨hfull, rfl⟩ := h
    exact exec_call_of_full hfull
  case ret =>
    simp only [raisedError, Option.ite_none_right_eq_some, Option.some.injEq] at h
    obtain ⟨hempty, rfl⟩ := h
    exact exec_ret_of_empty hempty
  case drw =>
    obtain ⟨hout, rfl⟩ := blockError_eq_some_iff.mp h
    exact exec_drw_of_not_inMemory hout
  case ldBV x =>
    obtain ⟨hout, rfl⟩ := blockError_succ_eq_some_iff.mp h
    exact exec_ldBV_of_not_inMemory x hout
  case ldMemV =>
    obtain ⟨hout, rfl⟩ := blockError_succ_eq_some_iff.mp h
    exact exec_ldMemV_of_not_inMemory hout
  case ldVMem =>
    obtain ⟨hout, rfl⟩ := blockError_succ_eq_some_iff.mp h
    exact exec_ldVMem_of_not_inMemory hout
  all_goals cases h

/-- An instruction the table gives no error latches none, in the states R43 admits. -/
theorem exec_fault_of_raisedError_none (hs : s.SpInRegion) (h : raisedError s i = none) (ht : exec i s = .next t) :
    t.fault = s.fault := by
  have keep (hi : Component.fault ∉ mayChange i) : t.fault = s.fault := exec_same ht hi
  cases i
  case call =>
    simp only [raisedError, ite_eq_right_iff, reduceCtorEq, imp_false, Nat.not_lt] at h
    rw [exec_call_of_room h] at ht
    cases ht; rfl
  case ret =>
    simp only [raisedError, ite_eq_right_iff, reduceCtorEq, imp_false, Nat.not_lt] at h
    rw [exec_ret_of_room h hs.le_memSize] at ht
    cases ht; rfl
  case drw x y n =>
    rw [exec_drw_of_inMemory (blockError_eq_none_iff.mp h)] at ht
    cases ht; exact (s.drawn_changesOnly x y n).1 .fault (by decide)
  case ldBV x =>
    rw [exec_ldBV_of_inMemory x (blockError_succ_eq_none_iff.mp h)] at ht
    cases ht; rfl
  case ldMemV =>
    rw [exec_ldMemV_of_inMemory (blockError_succ_eq_none_iff.mp h)] at ht
    cases ht; rfl
  case ldVMem =>
    rw [exec_ldVMem_of_inMemory (blockError_succ_eq_none_iff.mp h)] at ht
    cases ht; rfl
  all_goals exact keep (by simp [mayChange])

end Errors

/-! ## Writers of the general registers (R24) -/

section Registers

variable {s : State} {r : Nibble}

theorem State.getV_drawn_other (s : State) (x y n : Nibble) (h : r ≠ vf) : (s.drawn x y n).getV r = s.getV r := by
  unfold State.drawn
  split
  · rw [State.getV_drawSprite, if_neg h]
  · rw [State.getV_drawSprite, if_neg h]

/-- What LD Vx, [I] leaves in each register (R196). -/
theorem State.getV_loaded (s : State) (x r : Nibble) :
    (s.loaded x).getV r = if r.toNat ≤ x.toNat then s.mem.read (s.indexAddr + r.toNat) else s.getV r := by
  rw [State.loaded, getV_loadList]
  split
  · next h => rw [List.getD_eq_getElem _ _ (by simpa using Nat.lt_succ_of_le h)]; simp
  · next h => rw [List.getD_eq_default _ _ (by simp; omega)]

theorem exec_getV_of_not_writesReg {i : Instr} {t : State} (h : exec i s = .next t) (hr : writesReg r i = false) :
    t.getV r = s.getV r := by
  have keep (hi : Component.v ∉ mayChange i) : t.getV r = s.getV r := exec_same h hi r
  cases i
  case ldImm | addImm | ldReg | or | and | xor | rnd | ldVDt =>
    cases h
    exact s.getV_setV_other _ (by simpa [writesReg] using hr)
  case addReg | sub | subn | shr | shl =>
    cases h
    exact s.setResultAndFlag_keepsRegsBut _ _ _ r (by simpa [writesReg] using hr)
  case ldVR x =>
    cases h
    exact (getV_copyFirst s s.rpl x r).trans (if_neg (by simpa [writesReg] using hr))
  case ldVMem x =>
    obtain ⟨e, rfl⟩ | rfl := exec_ldVMem_cases h
    · rfl
    · rw [State.getV_loaded, if_neg (by simpa [writesReg] using hr)]
  case drw =>
    obtain ⟨e, rfl⟩ | rfl := exec_drw_cases h
    · rfl
    · exact s.getV_drawn_other _ _ _ (by simpa [writesReg] using hr)
  all_goals exact keep (by simp [mayChange])

end Registers

/-! ## Writers of the other components -/

section Writers

variable {i : Instr}

theorem i_mem_mayChange (h : Component.i ∈ mayChange i) :
    (∃ nnn, i = .ldI nnn) ∨ ∃ x, i = .addIV x ∨ i = .ldFV x ∨ i = .ldHfV x := by
  cases i <;> simp [mayChange] at h ⊢

theorem sp_mem_mayChange (h : Component.sp ∈ mayChange i) : i = .ret ∨ ∃ nnn, i = .call nnn := by
  cases i <;> simp [mayChange] at h ⊢

theorem rpl_mem_mayChange (h : Component.rpl ∈ mayChange i) : ∃ x, i = .ldRV x := by
  cases i <;> simp [mayChange] at h ⊢

theorem dt_mem_mayChange (h : Component.dt ∈ mayChange i) : ∃ x, i = .ldDtV x := by
  cases i <;> simp [mayChange] at h ⊢

theorem st_mem_mayChange (h : Component.st ∈ mayChange i) : ∃ x, i = .ldStV x := by
  cases i <;> simp [mayChange] at h ⊢

theorem mode_mem_mayChange (h : Component.mode ∈ mayChange i) : i = .low ∨ i = .high := by
  cases i <;> simp [mayChange] at h ⊢

theorem fb_mem_mayChange (h : Component.fb ∈ mayChange i) :
    i = .cls ∨ i = .scr ∨ i = .scl ∨ i = .low ∨ i = .high ∨ (∃ n, i = .scd n) ∨ ∃ x y n, i = .drw x y n := by
  cases i <;> simp [mayChange] at h ⊢

theorem await_mem_mayChange (h : Component.await ∈ mayChange i) : ∃ x, i = .ldVK x := by
  cases i <;> simp [mayChange] at h ⊢

theorem fault_mem_mayChange (h : Component.fault ∈ mayChange i) :
    i = .ret ∨ (∃ nnn, i = .call nnn) ∨ (∃ x y n, i = .drw x y n) ∨
      ∃ x, i = .ldBV x ∨ i = .ldMemV x ∨ i = .ldVMem x := by
  cases i <;> simp [mayChange] at h ⊢

theorem pc_mem_mayChange (h : Component.pc ∈ mayChange i) :
    ((∃ nnn, i = .jp nnn ∨ i = .call nnn ∨ i = .jpI nnn) ∨ i = .ret) ∨
      (∃ x nn, i = .seImm x nn ∨ i = .sneImm x nn) ∨ (∃ x y, i = .seReg x y ∨ i = .sneReg x y) ∨
        ∃ x, i = .skp x ∨ i = .sknp x := by
  cases i <;> simp [mayChange] at h ⊢

/-- Each of the six skips is `skipIf` of its own condition (R140). -/
theorem exec_skip {s : State}
    (h : (∃ x nn, i = .seImm x nn ∨ i = .sneImm x nn) ∨ (∃ x y, i = .seReg x y ∨ i = .sneReg x y) ∨
      ∃ x, i = .skp x ∨ i = .sknp x) : ∃ c, exec i s = .next (s.skipIf c) := by
  obtain ⟨x, nn, rfl | rfl⟩ | ⟨x, y, rfl | rfl⟩ | ⟨x, rfl | rfl⟩ := h <;> exact ⟨_, rfl⟩

/-- A skip that moves `pc` is taken. -/
theorem State.skipIf_pc_toNat_of_ne {s : State} {c : Bool} (h : (s.skipIf c).pc ≠ s.pc) :
    (s.skipIf c).pc.toNat = (s.pc.toNat + 2) % 4096 := by
  cases c
  · exact absurd rfl h
  · exact s.skipIf_pc_toNat true

end Writers

/-! ## Inputs and the sound timer (R16, R34) -/

section Inputs

/-- The state with other inputs of the step and another sound timer. -/
def State.withInputs (s : State) (k : Option Word) (b : Option Byte) (st : Byte) : State :=
  { s with keysIn := k, randIn := b, st := st }

variable {i : Instr} {s t : State} {k : Option Word} {b : Option Byte} {st : Byte}

/-- An answer whose two branches both ignore the inputs is that answer with the inputs put in. -/
theorem next_ite_withInputs {c : Prop} [Decidable c] {u v : State}
    (h : (if c then .next u else .next v : Result) = .next t) :
    (if c then .next (u.withInputs k b st) else .next (v.withInputs k b st) : Result) =
      .next (t.withInputs k b st) := by
  split
  · next hc => rw [if_pos hc] at h; cases h; rfl
  · next hc => rw [if_neg hc] at h; cases h; rfl

theorem exec_ret_withInputs (h : exec .ret s = .next t) :
    exec .ret (s.withInputs k b st) = .next (t.withInputs k b st) := by
  rcases Nat.lt_or_ge 4096 s.sp.toNat with hbeyond | hin
  · cases (execRet_of_beyond hbeyond).symm.trans h
    exact execRet_of_beyond (s := s.withInputs k b st) hbeyond
  · exact (execRet_eq (s := s.withInputs k b st) hin).trans (next_ite_withInputs ((execRet_eq hin).symm.trans h))

theorem State.drawn_withInputs (x y n : Nibble) :
    (s.withInputs k b st).drawn x y n = (s.drawn x y n).withInputs k b st := by
  change _ = State.withInputs (if _ then _ else _) k b st
  rw [apply_ite (State.withInputs · k b st)]
  rfl

theorem State.withInputs_eq_keysIn (hb : t.randIn = s.randIn) (hst : t.st = s.st) :
    t.withInputs k s.randIn s.st = { t with keysIn := k } := by rw [← hb, ← hst]; rfl

theorem State.withInputs_eq_randIn (hk : t.keysIn = s.keysIn) (hst : t.st = s.st) :
    t.withInputs s.keysIn b s.st = { t with randIn := b } := by rw [← hk, ← hst]; rfl

theorem State.withInputs_eq_st (hk : t.keysIn = s.keysIn) (hb : t.randIn = s.randIn) :
    t.withInputs s.keysIn s.randIn st = { t with st := st } := by rw [← hk, ← hb]; rfl

/-- With other inputs or another `ST` an instruction that reads none of them does the same. -/
theorem exec_withInputs (h : exec i s = .next t) (hk : (∀ x, i ≠ .skp x ∧ i ≠ .sknp x) ∨ k = s.keysIn)
    (hb : (∀ x nn, i ≠ .rnd x nn) ∨ b = s.randIn) (hst : ∀ x, i ≠ .ldStV x) :
    exec i (s.withInputs k b st) = .next (t.withInputs k b st) := by
  cases i
  case skp x =>
    obtain hk | rfl := hk
    · exact absurd rfl (hk x).1
    · cases h; rfl
  case sknp x =>
    obtain hk | rfl := hk
    · exact absurd rfl (hk x).2
    · cases h; rfl
  case rnd x nn =>
    obtain hb | rfl := hb
    · exact absurd rfl (hb x nn)
    · cases h; rfl
  case ldStV x => exact absurd rfl (hst x)
  case ret => exact exec_ret_withInputs h
  case call nnn => exact (execCall_eq nnn _).trans (next_ite_withInputs ((execCall_eq nnn s).symm.trans h))
  case ldBV x => exact (execLdBV_eq x _).trans (next_ite_withInputs ((execLdBV_eq x s).symm.trans h))
  case ldMemV x => exact (execLdMemV_eq x _).trans (next_ite_withInputs ((execLdMemV_eq x s).symm.trans h))
  case ldVMem x => exact (execLdVMem_eq x _).trans (next_ite_withInputs ((execLdVMem_eq x s).symm.trans h))
  case drw x y n =>
    have hite := next_ite_withInputs (k := k) (b := b) (st := st) ((execDrw_eq x y n s).symm.trans h)
    rw [← State.drawn_withInputs] at hite
    exact (execDrw_eq x y n _).trans hite
  all_goals cases h; rfl

end Inputs

end Sys2Proof.Machine
end

section
/-! PROOFS. The obligations on the whole machine: errors, writers and inputs. -/

namespace Sys2Proof

open Machine

/-- Settles O55: on the operands the table names, and on no others, the instruction latches the table's error. -/
theorem errorsAreThoseOfTheTable : Obligations.ErrorsAreThoseOfTheTable := by
  intro i s hs
  refine ⟨fun e he => ⟨_, exec_of_raisedError he, rfl, s.raise_changesOnly e⟩, fun hnone => ?quiet⟩
  case quiet =>
    obtain ⟨t, ht⟩ := exec_isNext i s
    exact ⟨t, ht, exec_fault_of_raisedError_none hs hnone ht⟩

/-- Settles O56: what is written is the block of bytes the instruction stores. -/
theorem onlyStoresWriteMemory : Obligations.OnlyStoresWriteMemory := by
  intro i s t h
  obtain hmem | ⟨vs, hlen, -, hmem⟩ := exec_mem h
  · intro a _
    rw [hmem]
  · rw [← hlen]
    intro a ha
    rw [hmem]
    exact keepsBytesOutside_putAll s _ vs a ha

/-- Settles O57: a register no row lists keeps its value in every one of the writes. -/
theorem onlyListedWritersWriteRegisters : Obligations.OnlyListedWritersWriteRegisters := fun _ _ _ _ h hr =>
  exec_getV_of_not_writesReg h hr

/-- Settles O58: a component that changed is one the instruction may change, and the rule names all that may. -/
theorem specialStateHasItsWriters : Obligations.SpecialStateHasItsWriters := by
  intro i s t h
  have changed {c : Component} (hc : ¬ c.Same s t) : c ∈ mayChange i := mem_mayChange_of_not_same h hc
  exact ⟨fun hc => i_mem_mayChange (changed hc), fun hc => sp_mem_mayChange (changed hc),
    fun ⟨x, hx⟩ => rpl_mem_mayChange (changed fun hsame => hx (hsame x)),
    fun hc => dt_mem_mayChange (changed hc), fun hc => st_mem_mayChange (changed hc),
    fun hc => mode_mem_mayChange (changed hc), fun hc => fb_mem_mayChange (changed hc),
    fun hc => running_mem_mayChange (changed hc), fun hc => await_mem_mayChange (changed hc),
    fun hc => fault_mem_mayChange (changed hc), exec_toHostSide h, exec_params h⟩

/-- Settles O59: what may change `pc` and is no jump, call or return is a skip, and one that moved `pc` was taken. -/
theorem onlyControlFlowMovesPc : Obligations.OnlyControlFlowMovesPc := by
  intro i s t h hpc
  obtain (hjump | hret) | hskip := pc_mem_mayChange (mem_mayChange_of_not_same h hpc)
  · exact .inl hjump
  · exact .inr (.inl hret)
  · obtain ⟨c, hc⟩ := exec_skip (s := s) hskip
    cases hc.symm.trans h
    exact .inr (.inr ⟨State.skipIf_pc_toNat_of_ne hpc, hskip⟩)

/-- Settles O60: the instruction runs alike under other inputs, and those it keeps stand in the next state. -/
theorem inputsReachOnlyTheirReaders : Obligations.InputsReachOnlyTheirReaders := by
  intro i s t k b st h
  by_cases hi : ∃ x, i = .ldStV x
  · obtain ⟨x, rfl⟩ := hi
    cases h
    exact ⟨fun _ => rfl, fun _ => rfl, fun hne => absurd rfl (hne x), fun _ _ => rfl⟩
  have hne : ∀ x, i ≠ .ldStV x := not_exists.mp hi
  have hkeys : t.keysIn = s.keysIn := congrArg HostSide.keysIn (exec_toHostSide h)
  have hrand : t.randIn = s.randIn := congrArg HostSide.randIn (exec_toHostSide h)
  have hst : t.st = s.st := exec_same (c := .st) h (mt st_mem_mayChange hi)
  refine ⟨fun hk => ?keys, fun hb => ?rand, fun _ => ?timer, fun x hx => absurd hx (hne x)⟩
  case keys =>
    rw [← State.withInputs_eq_keysIn hrand hst]
    exact exec_withInputs h (.inl hk) (.inr rfl) hne
  case rand =>
    rw [← State.withInputs_eq_randIn hkeys hst]
    exact exec_withInputs h (.inr rfl) (.inl hb) hne
  case timer =>
    rw [← State.withInputs_eq_st hkeys hrand]
    exact exec_withInputs h (.inr rfl) (.inr rfl) hne

end Sys2Proof
end

section
/-! SUPPORT. Blocks and words of memory inside the address space: what the primitives answer, and what a word write leaves
(R53 to R58). -/

namespace Sys2Proof.Machine

variable (m : Memory) (a v : Nat)

/-- A block write then read gives the bytes back (R54, R57). -/
theorem Memory.map_read_putAll (bs : List Byte) :
    ((List.range bs.length).map fun k => (m.putAll a bs).read (a + k)) = bs := by
  apply List.ext_getElem (by simp)
  intro k _ hk
  rw [List.getElem_map, List.getElem_range, Memory.read_putAll_add m a hk]

theorem Memory.readBlock_of_inMemory {n : Nat} (h : InMemory a n) :
    m.readBlock a n = .ok ((List.range n).map fun k => m.read (a + k)) :=
  (m.readBlock_eq a n).trans (if_pos (.inr h))

theorem Memory.writeBlock_of_inMemory {bs : List Byte} (h : InMemory a bs.length) :
    m.writeBlock a bs = .ok (m.putAll a bs) := (m.writeBlock_eq a bs).trans (if_pos (.inr h))

theorem Memory.writeBlock_of_not_inMemory {bs : List Byte} (hne : bs ≠ []) (h : ¬ InMemory a bs.length) :
    m.writeBlock a bs = .error (.addressError a bs.length) :=
  (m.writeBlock_eq a bs).trans (if_neg (not_or_intro (mt List.length_eq_zero_iff.mp hne) h))

/-- Memory with a word written at an address, high byte first (R56). -/
def Memory.putWord : Memory := (m.put a (BitVec.ofNat 8 (v >>> 8))).put (a + 1) (BitVec.ofNat 8 v)

theorem Memory.read_putWord_high : (m.putWord a v).read a = BitVec.ofNat 8 (v >>> 8) := by
  rw [Memory.putWord, Memory.read_put_other _ _ (by omega), Memory.read_put_same]

theorem Memory.read_putWord_low : (m.putWord a v).read (a + 1) = BitVec.ofNat 8 v := Memory.read_put_same ..

theorem Memory.read16_of_inMemory (h : InMemory a 2) : m.read16 a = .ok (wordOfBytes (m.read a) (m.read (a + 1))) :=
  (m.read16_eq a).trans (if_pos h)

theorem Memory.write16_of_inMemory (h : InMemory a 2) : m.write16 a v = .ok (m.putWord a v) :=
  (m.write16_eq a v).trans (if_pos h)

/-- The two bytes of a value make that value mod 65536 (R59). -/
theorem wordOfBytes_ofNat : wordOfBytes (BitVec.ofNat 8 (v >>> 8)) (BitVec.ofNat 8 v) = BitVec.ofNat 16 v := by
  apply BitVec.eq_of_toNat_eq
  simp only [wordOfBytes_toNat, BitVec.toNat_ofNat, Nat.shiftRight_eq_div_pow]
  omega

end Sys2Proof.Machine
end

section
/-! PROOFS. The obligations on the memory primitives. -/

namespace Sys2Proof

open Machine

/-- Settles O7: the range check is the only way a block primitive fails, and a write is read back byte by byte. -/
theorem blockWriteReadsBack : Obligations.BlockWriteReadsBack := by
  intro m a bs
  refine ⟨fun n hin => ⟨_, m.readBlock_of_inMemory a hin, by simp, fun k hk => ?read⟩, fun hin => ?written,
    fun hne hout => ⟨m.writeBlock_of_not_inMemory a hne hout, ?refused⟩, m.writeBlock_eq a [], m.readBlock_eq a 0⟩
  case read => rw [List.getD_eq_getElem _ _ (by simpa using hk)]; simp
  case written =>
    refine ⟨_, m.writeBlock_of_inMemory a hin, ?_, fun b hb => ?_, fun hm => Memory.wf_putAll bs hm hin⟩
    · rw [Memory.readBlock_of_inMemory _ a hin, m.map_read_putAll a bs]
    · rw [Memory.read_putAll, if_neg (by omega)]
  case refused =>
    rw [m.readBlock_eq, if_neg (not_or_intro (mt List.length_eq_zero_iff.mp hne) hout)]

/-- Settles O8: both primitives put the high byte first and check the range of both bytes. -/
theorem wordsAreBigEndian : Obligations.WordsAreBigEndian := by
  intro m a v
  refine ⟨fun hin => ?inside, fun hout => ?outside⟩
  case inside =>
    refine ⟨⟨_, m.read16_of_inMemory a hin, wordOfBytes_toNat ..⟩, _, m.write16_of_inMemory a v hin, ?_, ?_, ?_⟩
    · rw [Memory.read16_of_inMemory _ a hin, Memory.read_putWord_high, Memory.read_putWord_low, wordOfBytes_ofNat]
    · rw [Memory.read_putWord_high, BitVec.toNat_ofNat, Nat.shiftRight_eq_div_pow]
    · rw [Memory.read_putWord_low, BitVec.toNat_ofNat]
  case outside =>
    have h : ¬ InMemory a 2 := by simp only [InMemory]; omega
    exact ⟨(m.read16_eq a).trans (if_neg h), (m.write16_eq a v).trans (if_neg h)⟩

end Sys2Proof
end

section
/-! SUPPORT. Calls, returns and the other instructions of control flow: what each answers, and what a call leaves on the
stack (R60, R141 to R151, R220, R221). -/

namespace Sys2Proof.Machine

variable (s : State) (x y : Nibble) (nnn : Addr)

theorem exec_exit : exec .exit s = .next { s with running := false } := rfl

theorem exec_sys : exec (.sys nnn) s = .next s := rfl

theorem exec_jpI : exec (.jpI nnn) s = .next (s.setPc (s.i.toNat + nnn.toNat)) := rfl

theorem exec_addIV : exec (.addIV x) s = .next (s.setI (s.i.toNat + (s.getV x).toNat)) := rfl

theorem exec_ldFV : exec (.ldFV x) s = .next (s.setI (loGlyph (s.getV x))) := rfl

theorem exec_ldHfV : exec (.ldHfV x) s = .next (s.setI (hiGlyph s.params (s.getV x))) := rfl

theorem exec_seReg : exec (.seReg x y) s = .next (s.skipIf (s.getV x == s.getV y)) := rfl

theorem exec_sneReg : exec (.sneReg x y) s = .next (s.skipIf (s.getV x != s.getV y)) := rfl

theorem exec_skp : exec (.skp x) s = .next (s.skipIf (s.pressed (s.getV x))) := rfl

theorem exec_sknp : exec (.sknp x) s = .next (s.skipIf (!s.pressed (s.getV x))) := rfl

theorem State.setPc_pc_toNat (a : Nat) : (s.setPc a).pc.toNat = a % 4096 := BitVec.toNat_ofNat ..

theorem State.setI_i_toNat (a : Nat) : (s.setI a).i.toNat = a % 4096 := BitVec.toNat_ofNat ..

theorem State.pressed_iff (k : Byte) : s.pressed k = true ↔ k.toNat ≤ 15 ∧ s.keys.getLsbD k.toNat = true := by
  simp [State.pressed]

/-- The frame a call leaves: low byte first (R60, R145). -/
theorem State.called_frame :
    ((s.called nnn).mem.read s.sp.toNat).toNat = s.pc.toNat % 256 ∧
      ((s.called nnn).mem.read (s.sp.toNat + 1)).toNat = s.pc.toNat / 256 := by
  have hpc := s.pc.isLt
  constructor
  · change (Memory.read (Memory.putAll _ _ _) (s.pushAddr + 0)).toNat = _
    rw [Memory.read_putAll_add _ _ (by simp)]
    simp
  · change (Memory.read (Memory.putAll _ _ _) (s.pushAddr + 1)).toNat = _
    rw [Memory.read_putAll_add _ _ (by simp)]
    simp only [List.getElem_cons_succ, List.getElem_cons_zero, BitVec.toNat_ofNat]
    omega

theorem State.called_keepsBytesOutside : KeepsBytesOutside s.pushAddr 2 s (s.called nnn) :=
  keepsBytesOutside_putAll s s.pushAddr [_, _]

theorem State.called_pc : (s.called nnn).pc = nnn := s.setPc_toNat_pc nnn

theorem State.returned_pc_toNat :
    s.returned.pc.toNat =
      ((s.mem.read (s.sp.toNat - 1)).toNat * 256 + (s.mem.read (s.sp.toNat - 2)).toNat) % 4096 :=
  BitVec.toNat_ofNat ..

/-- A return undoes the call's moves of `pc` and `sp` (R151). -/
theorem State.returned_called (h : s.sp.toNat + 2 ≤ s.params.stackEnd) :
    (s.called nnn).returned.pc = s.pc ∧ (s.called nnn).returned.sp = s.sp := by
  obtain ⟨hlo, hhi⟩ := s.called_frame nnn
  have hsp := s.called_sp nnn h
  have hpc := s.pc.isLt
  constructor
  · apply BitVec.eq_of_toNat_eq
    rw [State.returned_pc_toNat, hsp, show s.sp.toNat + 2 - 1 = s.sp.toNat + 1 by omega, Nat.add_sub_cancel, hlo, hhi]
    omega
  · apply BitVec.eq_of_toNat_eq
    rw [State.returned_sp _ (by omega), hsp, Nat.add_sub_cancel]

end Sys2Proof.Machine
end

section
/-! PROOFS. The obligations on control flow. -/

namespace Sys2Proof

open Machine

/-- Settles O25: RET with a frame on the stack answers the popped state. -/
theorem returnPopsTheFrame : Obligations.ReturnPopsTheFrame := fun s hs hroom =>
  ⟨_, exec_ret_of_room hroom hs.le_memSize, s.returned_pc_toNat, s.returned_sp (by omega), s.returned_changesOnly⟩

/-- Settles O26: CALL with room answers the state with the frame pushed. -/
theorem callPushesTheReturnAddress : Obligations.CallPushesTheReturnAddress := by
  intro nnn s hroom
  obtain ⟨hlo, hhi⟩ := s.called_frame nnn
  exact ⟨_, exec_call_of_room hroom, hlo, hhi, rfl, s.called_keepsBytesOutside nnn, s.called_sp nnn hroom,
    s.called_pc nnn, s.called_changesOnly nnn⟩

/-- Settles O27: RET finds the frame that CALL left, and both together change memory alone. -/
theorem callThenReturnResumes : Obligations.CallThenReturnResumes := by
  intro nnn s hbase hroom
  have hend := s.params.stackEnd_le
  have hsp := s.called_sp nnn hroom
  obtain ⟨hpc, hsp'⟩ := s.returned_called nnn hroom
  obtain ⟨hsame, hhost, hparams⟩ := (s.called_changesOnly nnn).trans (s.called nnn).returned_changesOnly
  refine ⟨_, _, exec_call_of_room hroom, exec_ret_of_room (by omega) (by omega), hpc, hsp', fun c hc => ?_, hhost,
    hparams⟩
  cases c
  case pc => exact hpc
  case sp => exact hsp'
  case mem => simp at hc
  all_goals exact hsame _ (by simp)

/-- Settles O29: SYS answers the state it was given, and its words are those the decoder leaves to it. -/
theorem sysDoesNothing : Obligations.SysDoesNothing := fun nnn s =>
  ⟨exec_sys s nnn, fun h => decodeWord_sys (by simpa [Instr.wellFormed] using h)⟩

/-- Settles O31: each is one write of the exact sum to a 12-bit register. -/
theorem indexSumsWrap : Obligations.IndexSumsWrap := fun nnn x s =>
  ⟨⟨_, exec_jpI s nnn, s.setPc_pc_toNat _, s.setPc_changesOnly _⟩,
    ⟨_, exec_addIV s x, s.setI_i_toNat _, s.setI_changesOnly _⟩⟩

/-- Settles O33: each of the two is a skip taken on its own condition. -/
theorem skipsOnRegisters : Obligations.SkipsOnRegisters := by
  intro x y s
  refine ⟨⟨_, exec_seReg s x y, s.skipIf_changesOnly _, ?se⟩, ⟨_, exec_sneReg s x y, s.skipIf_changesOnly _, ?sne⟩⟩
  case se => simp only [State.skipIf_pc_toNat, beq_iff_eq]
  case sne => simp only [State.skipIf_pc_toNat, bne_iff_ne]

/-- Settles O47: both skips ask `pressed`, which no byte above 15 is. -/
theorem skipsOnKeys : Obligations.SkipsOnKeys := by
  intro x s
  refine ⟨⟨_, exec_skp s x, s.skipIf_changesOnly _, ?skp⟩, ⟨_, exec_sknp s x, s.skipIf_changesOnly _, ?sknp⟩,
    fun k hk => ?given, fun hk => ?free⟩
  case skp => simp only [State.skipIf_pc_toNat, State.pressed_iff]
  case sknp =>
    rw [State.skipIf_pc_toNat]
    by_cases h : s.pressed (s.getV x) = true
    · rw [if_neg (by simp [h]), if_pos ((s.pressed_iff _).mp h)]
    · rw [if_pos (by simp [h]), if_neg (mt (s.pressed_iff _).mpr h)]
  case given => rw [State.keys, hk]; rfl
  case free => rw [State.keys, hk]; rfl

/-- Settles O41: a low glyph's address stays below 4096 for every byte, and a high one is cut to 12 bits. -/
theorem glyphAddresses : Obligations.GlyphAddresses := by
  intro x s
  have hx := (s.getV x).isLt
  refine ⟨⟨_, exec_ldFV s x, (s.setI_i_toNat _).trans ?low, s.setI_changesOnly _⟩,
    ⟨_, exec_ldHfV s x, s.setI_i_toNat _, s.setI_changesOnly _⟩⟩
  case low => simp only [loGlyph, Config.fontLoBase, Config.loGlyphBytes]; omega

end Sys2Proof
end

section
/-! SUPPORT. The machine's next step, issued or free: what it answers in a stop state, on a fetched word, on an injected
word and where it fails, and that no error ends the run (R113, R118 to R128). -/

namespace Sys2Proof.Machine

variable {s : State} {o k : Option Word} {b : Option Byte} {ts : List Transaction}

/-- The state in which a step runs: its transaction taken off the list and its inputs sampled. -/
abbrev State.begun (s : State) (k : Option Word) (b : Option Byte) (ts : List Transaction) : State :=
  ({ s with pending := ts } : State).sample k b

/-! ## Stop states -/

theorem State.stopStatus_of_faulted {e : Fault} (h : s.fault = some e) : s.stopStatus = some (.faulted e) := by
  simp only [State.stopStatus, h]

theorem State.stopStatus_of_halted (hf : s.fault = none) (hr : s.running = false) :
    s.stopStatus = some .halted := by
  simp [State.stopStatus, hf, hr]

theorem State.stopStatus_of_waiting {x : Nibble} (hf : s.fault = none) (hr : s.running = true)
    (ha : s.await = some x) : s.stopStatus = some .awaitingKey := by
  simp [State.stopStatus, hf, hr, ha]

theorem step_stopped {st : Status} (hnext : s.NextIsStep o k b ts) (hstop : s.stopStatus = some st) :
    step s = .next ((s.begun k b ts).respond (.stepped st none)) :=
  (step_nextIsStep hnext).trans (stepTransaction_stopped (s := { s with pending := ts }) hstop o k b)

/-! ## Steps that execute -/

section Executes

variable {s0 s1 t : State} {w : Word} {i : Instr} {e : Fault}

theorem step_running (hrun : s.Running) (hnext : s.NextIsStep o k b ts) : step s = runStep (s.begun k b ts) o :=
  (step_nextIsStep hnext).trans (stepTransaction_running (s := { s with pending := ts }) hrun o k b)

theorem step_fetched (hrun : s.Running) (hnext : s.NextIsStep none k b ts) (hw : s.fetch = .ok w) :
    step s = runWord (s.begun k b ts) (s.begun k b ts).advance w := by
  have hw0 : (s.begun k b ts).fetch = .ok w := hw
  rw [step_running hrun hnext]
  simp only [runStep, hw0]

theorem step_injected (hrun : s.Running) (h : s.pending = .step (some w) k b :: ts) :
    step s = runWord (s.begun k b ts) (s.begun k b ts) w := step_running hrun (.inl h)

theorem runWord_done (hd : decodeWord w = .ok i) (ht : exec i s1 = .next t) (hf : t.fault = none) :
    runWord s0 s1 w = .next (t.respond (.stepped t.doneStatus (some w))) := by
  rw [runWord_ok hd, ht, finishStep_done hf]

theorem runWord_raised (hd : decodeWord w = .ok i) (ht : exec i s1 = .next t) (hf : t.fault = some e) :
    runWord s0 s1 w = .next (s0.fail e) := by
  rw [runWord_ok hd, ht, finishStep_raised hf]

theorem runWord_isNext (hparams : s1.params = s0.params) : ∃ t, runWord s0 s1 w = .next t ∧ t.params = s0.params := by
  cases hd : decodeWord w with
  | error r => exact ⟨_, runWord_error hd s0 s1, rfl⟩
  | ok i =>
    obtain ⟨t, ht⟩ := exec_isNext i s1
    cases hf : t.fault with
    | some e => exact ⟨_, runWord_raised hd ht hf, rfl⟩
    | none => exact ⟨_, runWord_done hd ht hf, (exec_params ht).trans hparams⟩

theorem runStep_isNext (s0 : State) (o : Option Word) : ∃ t, runStep s0 o = .next t ∧ t.params = s0.params := by
  cases o with
  | some w => exact runWord_isNext rfl
  | none =>
    by_cases hpc : s0.pc = 0xFFF
    · exact ⟨_, runStep_fetchFault hpc, rfl⟩
    · rw [runStep_fetched hpc]; exact runWord_isNext rfl

theorem stepTransaction_isNext (s : State) (o k : Option Word) (b : Option Byte) :
    ∃ t, stepTransaction o k b s = .next t ∧ t.params = s.params := by
  cases hstop : s.stopStatus with
  | some st => exact ⟨_, stepTransaction_stopped hstop o k b, rfl⟩
  | none =>
    rw [stepTransaction_running (State.stopStatus_eq_none hstop)]
    exact runStep_isNext _ o

end Executes

/-! ## Stored registers (R195) -/

section Stored

variable {x : Nibble}

/-- Register `j` of a stored block reads back at offset `j`. -/
theorem State.read_putAll_firstRegs (s : State) (m : Memory) (a : Nat) {j : Nibble} (h : j.toNat ≤ x.toNat) :
    (m.putAll a (s.firstRegs x)).read (a + j.toNat) = s.getV j := by
  have hlen : j.toNat < (s.firstRegs x).length := by rw [s.firstRegs_length]; omega
  rw [Memory.read_putAll_add m a hlen, ← List.getD_eq_getElem _ 0 hlen, s.firstRegs_getD x j h]

/-- Registers stored at `pc` are the next word fetched (R71). -/
theorem State.fetch_stored (s : State) (hx : 1 ≤ x.toNat) (hi : s.i.toNat = s.pc.toNat) (hpc : s.pc.toNat < 0xFFF) :
    ({ s with mem := s.mem.putAll s.indexAddr (s.firstRegs x) } : State).fetch =
      .ok (wordOfBytes (s.getV 0) (s.getV 1)) := by
  have h0 := s.read_putAll_firstRegs s.mem s.indexAddr (x := x) (j := 0) (Nat.zero_le _)
  have h1 := s.read_putAll_firstRegs s.mem s.indexAddr (x := x) (j := 1) hx
  rw [← h0, ← h1, State.indexAddr, hi]
  exact (State.fetch_eq _).trans (if_neg fun h : s.pc = 0xFFF => by simp [h] at hpc)

end Stored

/-! ## The host's other transactions -/

section Host

theorem loadTransaction_of_started (h : s.started = true) (a : Nat) (bs : List Byte) :
    loadTransaction a bs s = .refused .loadAfterFirstStep := if_pos h

theorem loadTransaction_of_inMemory (h : s.started = false) {a : Nat} {bs : List Byte} (hin : InMemory a bs.length) :
    loadTransaction a bs s = .next (({ s with mem := s.mem.putAll a bs } : State).respond (.loaded none)) := by
  rw [loadTransaction, if_neg (by simp [h]), s.mem.writeBlock_of_inMemory a hin]

theorem loadTransaction_of_not_inMemory (h : s.started = false) {a : Nat} {bs : List Byte} (hne : bs ≠ [])
    (hout : ¬ InMemory a bs.length) :
    loadTransaction a bs s = .next (s.respond (.loaded (some (.addressError a bs.length)))) := by
  rw [loadTransaction, if_neg (by simp [h]), s.mem.writeBlock_of_not_inMemory a hne hout]

theorem loadTransaction_isNext (h : s.started = false) (a : Nat) (bs : List Byte) :
    ∃ t, loadTransaction a bs s = .next t ∧ t.params = s.params := by
  rw [loadTransaction, if_neg (by simp [h])]
  cases s.mem.writeBlock a bs
  · exact ⟨_, rfl, rfl⟩
  · exact ⟨_, rfl, rfl⟩

theorem State.keyPress_params (s : State) (x : Nibble) : (s.keyPress x).params = s.params := by
  unfold State.keyPress
  split <;> rfl

theorem setRegTransaction_params (s : State) (r : RegName) (v : Nat) :
    (setRegTransaction r v s).params = s.params := by
  cases r
  case sp =>
    unfold setRegTransaction
    split_ifs
    · rfl
    · rfl
  all_goals rfl

/-- Every transaction but a late load answers a next state (R10, R21, R112). -/
theorem perform_isNext (tr : Transaction) (s : State) :
    (∃ t, perform tr s = .next t ∧ t.params = s.params) ∨ (s.started = true ∧ ∃ a bs, tr = .load a bs) := by
  cases tr with
  | load a bs =>
    cases h : s.started with
    | true => exact .inr ⟨rfl, a, bs, rfl⟩
    | false => exact .inl (loadTransaction_isNext h a bs)
  | step o k b => exact .inl (stepTransaction_isNext s o k b)
  | keyPress x => exact .inl ⟨_, rfl, s.keyPress_params x⟩
  | setReg r v => exact .inl ⟨_, rfl, setRegTransaction_params s r v⟩
  | reset | tick | observe | getReg => exact .inl ⟨_, rfl, rfl⟩

end Host

end Sys2Proof.Machine
end

section
/-! PROOFS. The obligations on the step. -/

namespace Sys2Proof

open Machine

/-- Settles O12: each transaction answers a next state, unless it is a load the host issued too late. -/
theorem onlyLateLoadIsRefused : Obligations.OnlyLateLoadIsRefused := by
  intro s
  cases hp : s.pending with
  | nil =>
    rw [step_empty hp]
    exact .inl (stepTransaction_isNext s none none none)
  | cons tr ts =>
    rw [step_pending hp]
    obtain hnext | ⟨hstarted, a, bs, rfl⟩ := perform_isNext tr { s with pending := ts }
    · exact .inl hnext
    · exact .inr ⟨loadTransaction_of_started hstarted a bs, hstarted, a, bs, ts, rfl⟩

/-- Settles O13: the step is `runWord` on the fetched word and the advanced state, and fetch fails at 0xFFF alone. -/
theorem stepRunsTheDecodedInstruction : Obligations.StepRunsTheDecodedInstruction := by
  refine ⟨fun s i k b ts hrun hnext hpc hdecode => ?runs, fun s k b ts hrun hnext hpc => ?fails, fun s => ?fetch⟩
  case runs =>
    have hd : decodeWord (wordOfBytes (s.mem.read s.pc.toNat) (s.mem.read (s.pc.toNat + 1))) = .ok i := by
      simp only [decode] at hdecode
      split at hdecode
      · next hi => cases hdecode; exact hi
      · cases hdecode
    obtain ⟨t, ht⟩ := exec_isNext i (s.begun k b ts).advance
    have hstep := step_fetched hrun hnext (s.fetch_eq.trans (if_neg hpc))
    exact ⟨(s.begun k b ts).advance, t, rfl, rfl, rfl, rfl, rfl, rfl, ht,
      fun hf => hstep.trans (runWord_done hd ht hf), fun e hf => hstep.trans (runWord_raised hd ht hf)⟩
  case fails => exact (step_running hrun hnext).trans (runStep_fetchFault hpc)
  case fetch =>
    rw [State.fetch_eq]
    split
    · next h => exact iff_of_true h ⟨_, rfl⟩
    · next h => exact iff_of_false h (fun ⟨_, he⟩ => by cases he)

/-- Settles O14: a failed step answers the state before it with the error latched. -/
theorem failedStepIsRolledBack : Obligations.FailedStepIsRolledBack := by
  intro s w k b ts hrun hnext hw
  have hstep := step_fetched hrun hnext hw
  exact ⟨fun i e hd _ he => ⟨_, hstep.trans (runWord_raised hd (exec_of_raisedError he) rfl), rfl, rfl, rfl⟩,
    fun r hd => ⟨_, hstep.trans (runWord_error hd _ _), rfl, rfl, rfl⟩⟩

/-- Settles O15: the status a stopped step answers is the first of R118's order. -/
theorem stoppedStepsChangeNothing : Obligations.StoppedStepsChangeNothing := fun _ _ _ _ _ hnext =>
  ⟨fun _ hf => ⟨_, step_stopped hnext (State.stopStatus_of_faulted hf), rfl, rfl, rfl⟩,
    fun hf hr => ⟨_, step_stopped hnext (State.stopStatus_of_halted hf hr), rfl, rfl, rfl⟩,
    fun _ hf hr ha => ⟨_, step_stopped hnext (State.stopStatus_of_waiting hf hr ha), rfl, rfl, rfl⟩⟩

/-- Settles O16: an injected word runs on the state before the step, to which a failure goes back. -/
theorem injectedWordRunsUnadvanced : Obligations.InjectedWordRunsUnadvanced := by
  intro s w k b ts hrun hp
  have hstep := step_injected hrun hp
  refine ⟨fun i hd => ?decoded, fun r hd => ⟨_, hstep.trans (runWord_error hd _ _), rfl, rfl, rfl⟩⟩
  case decoded =>
    obtain ⟨t, ht⟩ := exec_isNext i (s.begun k b ts)
    exact ⟨s.begun k b ts, t, rfl, rfl, rfl, rfl, rfl, ht, fun hf => hstep.trans (runWord_done hd ht hf),
      fun e hf => ⟨_, hstep.trans (runWord_raised hd ht hf), rfl, rfl, rfl⟩⟩

/-- Settles O17: the block stored at `pc + 2` begins with `V[0]` and `V[1]`, and the advanced `pc` stands there. -/
theorem storedBytesAreFetchedNext : Obligations.StoredBytesAreFetchedNext := by
  intro s x k b ts hrun hnext hx hroom hi hw
  have hpc : (s.begun k b ts).advance.pc.toNat = s.pc.toNat + 2 :=
    (s.setPc_pc_toNat (s.pc.toNat + 2)).trans (Nat.mod_eq_of_lt (by omega))
  have hi1 : (s.begun k b ts).advance.i.toNat = s.pc.toNat + 2 := hi
  have hstored := exec_ldMemV_of_inMemory (s := (s.begun k b ts).advance) (x := x)
    (by simp only [InMemory, State.indexAddr]; omega)
  have hfault : (s.begun k b ts).advance.fault = none := hrun.1
  refine ⟨_, (step_fetched hrun hnext hw).trans (runWord_done (decodeWord_encode rfl) hstored hfault), hfault, rfl,
    ?next⟩
  case next => exact State.fetch_stored (s.begun k b ts).advance hx (hi1.trans hpc.symm) (by omega)

/-- Settles O28: EXIT clears one component; the halted core's steps and ticks are those of any stopped core. -/
theorem exitHaltsTheCore : Obligations.ExitHaltsTheCore :=
  ⟨decodeWord_exit, fun s => ⟨_, exec_exit s, rfl, changesOnly_running s _⟩,
    fun _ _ _ _ _ hnext hf hr => ⟨_, step_stopped hnext (State.stopStatus_of_halted hf hr), rfl, rfl, rfl⟩,
    fun s _ hp hr => ⟨_, step_tick hp, countDown_toNat s.dt, hr⟩⟩

end Sys2Proof
end

section
/-! SUPPORT. What the host reads back of a register it set, the register files at reset, and the step that begins a key
wait (R42, R44, R116, R224). -/

namespace Sys2Proof.Machine

/-- The state the host's list is taken off before a transaction is performed. -/
abbrev State.withPending (s : State) (ts : List Transaction) : State := { s with pending := ts }

variable {s t : State} {ts : List Transaction}

theorem ChangesOnly.same_of_ne {c c' : Component} (h : ChangesOnly [c] s t) (hc : c' ≠ c) : c'.Same s t :=
  h.1 c' (by simpa using hc)

theorem State.setRpl_changesOnly (s : State) (x : Nibble) (b : Byte) : ChangesOnly [.rpl] s (s.setRpl x b) :=
  changesOnly_rpl s _

/-- What `getReg` reads after `setReg` of any register but `sp`: the value cut to the register's width (R44). -/
def maskedTo (v : Nat) : RegName → Nat
  | .v _ | .rpl _ => v % 256
  | .i | .pc => v % 4096
  | .sp => v

theorem getReg_setRegTransaction {r : RegName} (hr : r ≠ .sp) (s : State) (v : Nat) :
    (setRegTransaction r v s).getReg r = maskedTo v r := by
  cases r with
  | v x => exact (congrArg BitVec.toNat (s.getV_setV_same x _)).trans (BitVec.toNat_ofNat ..)
  | rpl x => exact (congrArg BitVec.toNat (s.getRpl_setRpl_same x _)).trans (BitVec.toNat_ofNat ..)
  | i => exact BitVec.toNat_ofNat ..
  | pc => exact BitVec.toNat_ofNat ..
  | sp => exact absurd rfl hr

theorem setRegTransaction_pending (r : RegName) (v : Nat) (s : State) :
    (setRegTransaction r v s).pending = s.pending := by
  cases r
  case sp =>
    unfold setRegTransaction
    split_ifs
    · rfl
    · rfl
  all_goals rfl

theorem State.getV_reset (x : Nibble) : State.reset.getV x = 0x00 := Vector.getElem_replicate ..

theorem State.getRpl_reset (x : Nibble) : State.reset.getRpl x = 0x00 := Vector.getElem_replicate ..

/-- LD Vx, K ends its step in the wait, with `pc` past it (R224, R128). -/
theorem step_begins_keyWait {x : Nibble} {k : Option Word} {b : Option Byte} (hrun : s.Running)
    (hw : s.fetch = .ok (packXnn 0xF x 0x0A)) (hp : s.pending = .step none k b :: ts) :
    ∃ t, step s = .next t ∧ t.response = .stepped .awaitingKey (some (packXnn 0xF x 0x0A)) ∧ t.fault = none ∧
      t.running = true ∧ t.await = some x ∧ t.pc.toNat = (s.pc.toNat + 2) % 4096 ∧ t.pending = ts := by
  have hstep := step_fetched hrun (.inl hp) hw
  obtain ⟨hfault, hrunning, -⟩ := hrun
  exact ⟨_, hstep.trans (runWord_done (decodeWord_ldVK x) rfl hfault), rfl, hfault, hrunning, rfl,
    s.setPc_pc_toNat _, rfl⟩

end Sys2Proof.Machine
end

section
/-! PROOFS. The obligations on reset, the host's other transactions and the key wait. -/

namespace Sys2Proof

open Machine

/-- Settles O9: memory lists nothing, the register files are all zero and the picture is the blank one. -/
theorem resetValues : Obligations.ResetValues :=
  ⟨Memory.read_nil, State.getV_reset, State.getRpl_reset, rfl, rfl, rfl, rfl, rfl, rfl,
    Framebuffer.sized_blank .normal, Framebuffer.pixel_blank .normal, rfl, rfl, rfl⟩

/-- Settles O18: `reset` puts the whole tuple in place. -/
theorem resetTransactionRestoresAll : Obligations.ResetTransactionRestoresAll := fun _ _ hp =>
  ⟨_, step_pending hp, rfl, rfl, rfl, rfl⟩

/-- Settles O20: a press writes one register and ends the wait, or leaves the state as it was. -/
theorem keyPressEndsOnlyAWait : Obligations.KeyPressEndsOnlyAWait := by
  intro s k ts hp
  have hstep : step s = .next (((s.withPending ts).keyPress k).respond .none) := step_pending hp
  refine ⟨fun x hf hr ha => ?waiting, fun h => ?lost⟩
  case waiting =>
    rw [State.keyPress_of_waiting (s := s.withPending ts) hf hr ha] at hstep
    obtain ⟨hsame, -, -⟩ := (s.setV_changesOnly x (BitVec.ofNat 8 k.toNat)).trans (changesOnly_await _ none)
    refine ⟨_, hstep, ?_, rfl, s.setV_keepsRegsBut x _, hsame, rfl⟩
    exact (congrArg BitVec.toNat (s.getV_setV_same x _)).trans
      ((BitVec.toNat_ofNat ..).trans (Nat.mod_eq_of_lt (by omega)))
  case lost =>
    rw [State.keyPress_of_not_waiting (s := s.withPending ts) h] at hstep
    exact ⟨_, hstep, rfl, rfl⟩

/-- Settles O21: the register written is read back by the next transaction, which writes none. -/
theorem setThenGetIsMasked : Obligations.SetThenGetIsMasked := by
  intro s r v ts hp hr
  have hset : step s = .next (setRegTransaction r v (s.withPending (.getReg r :: ts))) := step_pending hp
  have hget := step_pending ((setRegTransaction_pending r v _).trans rfl :
    (setRegTransaction r v (s.withPending (.getReg r :: ts))).pending = .getReg r :: ts)
  have hread : (setRegTransaction r v (s.withPending (.getReg r :: ts))).getReg r = maskedTo v r :=
    getReg_setRegTransaction hr _ v
  refine ⟨_, _, hset, hget, rfl, rfl, ?_, ?_, ?_, ?_⟩
  · rintro x rfl
    exact ⟨congrArg Response.regValue hread, s.setV_keepsRegsBut x _,
      fun c hc => (s.setV_changesOnly x _).same_of_ne hc⟩
  · rintro x rfl
    exact ⟨congrArg Response.regValue hread, fun y hy => s.getRpl_setRpl_other _ hy,
      fun c hc => (s.setRpl_changesOnly x _).same_of_ne hc⟩
  · rintro rfl
    exact ⟨congrArg Response.regValue hread, fun c hc => (s.setI_changesOnly v).same_of_ne hc⟩
  · rintro rfl
    exact ⟨congrArg Response.regValue hread, fun c hc => (s.setPc_changesOnly v).same_of_ne hc⟩

/-- Settles O22: the two clauses are the two answers of the guard. -/
theorem setStackPointerIsGuarded : Obligations.SetStackPointerIsGuarded := by
  intro s v ts hp
  have hstep : step s = .next (setRegTransaction .sp v (s.withPending ts)) := step_pending hp
  refine ⟨fun ⟨hbase, hend, heven⟩ => ?stored, fun h => ?refused⟩
  case stored =>
    have hv : Params.spAllowed s.params v = true :=
      (Params.spAllowed_iff s.params v).mpr ⟨hbase, hend, by simp only [Config.stackBase]; omega⟩
    rw [setRegTransaction_sp_of_allowed (s := s.withPending ts) hv] at hstep
    exact ⟨_, hstep, toNat_ofNat_of_spAllowed hv, fun c hc => (changesOnly_sp s _).same_of_ne hc, rfl⟩
  case refused =>
    have hv : ¬ Params.spAllowed s.params v = true := by
      rw [Params.spAllowed_iff]
      simp only [Config.stackBase]
      omega
    rw [setRegTransaction_sp_of_not_allowed (s := s.withPending ts) hv] at hstep
    exact ⟨_, hstep, rfl, rfl, rfl⟩

/-- Settles O23: a load is one block write, and the host's own error where that fails. -/
theorem loadOnlyBeforeTheFirstStep : Obligations.LoadOnlyBeforeTheFirstStep := by
  intro s a bs ts hp
  have hstep : step s = loadTransaction a bs (s.withPending ts) := step_pending hp
  refine ⟨fun hnew hin => ?written, fun hnew hne hout => ?error,
    fun hlate => hstep.trans (loadTransaction_of_started (s := s.withPending ts) hlate a bs)⟩
  case written =>
    refine ⟨_, hstep.trans (loadTransaction_of_inMemory (s := s.withPending ts) hnew hin), rfl, hnew, rfl,
      fun k hk => ?_, keepsBytesOutside_putAll s a bs, fun c hc => (changesOnly_mem s _).same_of_ne hc⟩
    rw [List.getD_eq_getElem _ _ hk]
    exact s.mem.read_putAll_add a hk
  case error =>
    exact ⟨_, hstep.trans (loadTransaction_of_not_inMemory (s := s.withPending ts) hnew hne hout), rfl, rfl, rfl⟩

/-- Settles O24: the observation is made of the state's own fields. -/
theorem observationIsFaithful : Obligations.ObservationIsFaithful := by
  intro s ts hp
  refine ⟨_, _, step_pending hp, rfl, rfl, rfl, rfl, rfl, fun hm => ?normal, fun hm => ?extended,
    s.soundActive_iff, rfl, rfl, rfl, rfl, rfl, rfl, rfl, rfl, rfl⟩
  case normal => exact ⟨congrArg Mode.width hm, congrArg Mode.height hm⟩
  case extended => exact ⟨congrArg Mode.width hm, congrArg Mode.height hm⟩

/-- Settles O48: the first step begins the wait, the second is a stopped step, and the press ends the wait. -/
theorem keyWaitFromStartToEnd : Obligations.KeyWaitFromStartToEnd := by
  refine ⟨fun x s => ⟨_, rfl, rfl, changesOnly_await s _⟩, fun x k s o k1 k2 b1 b2 ts hrun hw hp => ?run⟩
  case run =>
    obtain ⟨t, hst, htresp, htf, htr, hta, htpc, htp⟩ := step_begins_keyWait hrun hw hp
    obtain ⟨-, -, hstopped⟩ := stoppedStepsChangeNothing t o k2 b2 (.keyPress k :: ts) (.inl htp)
    obtain ⟨u, htu, huarch, huresp, hup⟩ := hstopped x htf htr hta
    obtain ⟨hpress, -⟩ := keyPressEndsOnlyAWait u k ts hup
    obtain ⟨v, huv, hkey, hvawait, -, hsame, hvp⟩ := hpress x ((congrArg Arch.fault huarch).trans htf)
      ((congrArg Arch.running huarch).trans htr) ((congrArg Arch.await huarch).trans hta)
    have hvpc : v.pc = u.pc := hsame .pc (by decide)
    exact ⟨t, u, v, hst, htu, huv, htresp, hta, htpc, huresp, huarch, hkey, hvawait,
      hvpc.trans (congrArg Arch.pc huarch), hvp⟩

end Sys2Proof
end

section
/-! SUPPORT. The shifts, the random byte, the register blocks and the scrolls: what each instruction answers, and the bit a
shift moves out as a number (R169, R171, R172, R195, R196, R245 to R250). -/

namespace Sys2Proof.Machine

variable (s : State) (x y n : Nibble) (nn : Byte)

/-! ## The bit shifted out -/

theorem flag_toNat (c : Bool) : (flag c).toNat = c.toNat := by cases c <;> rfl

theorem bit0Flag_toNat (a : Byte) : (bit0Flag a).toNat = a.toNat % 2 := by
  rw [bit0Flag, flag_toNat, ← BitVec.testBit_toNat, Nat.toNat_testBit, Nat.pow_zero, Nat.div_one]

theorem bit7Flag_toNat (a : Byte) : (bit7Flag a).toNat = a.toNat / 128 := by
  have := a.isLt
  rw [bit7Flag, flag_toNat, ← BitVec.testBit_toNat, Nat.toNat_testBit]
  omega

/-! ## What the instructions answer -/

theorem exec_shr :
    exec (.shr x y) s = .next (s.setResultAndFlag y (BitVec.ofNat 8 ((s.getV x).toNat >>> 1)) (bit0Flag (s.getV x))) :=
  rfl

theorem exec_shl :
    exec (.shl x y) s = .next (s.setResultAndFlag y (BitVec.ofNat 8 ((s.getV x).toNat <<< 1)) (bit7Flag (s.getV x))) :=
  rfl

theorem exec_rnd : exec (.rnd x nn) s = .next (s.setV x (nn &&& s.rand)) := rfl

theorem exec_cls : exec .cls s = .next { s with fb := Framebuffer.tabulate s.mode fun _ _ => false } := rfl

theorem exec_low : exec .low s = .next (s.selectMode .normal) := rfl

theorem exec_high : exec .high s = .next (s.selectMode .extended) := rfl

theorem exec_scd :
    exec (.scd n) s = .next
      { s with fb := Framebuffer.tabulate s.mode fun x y =>
                  if n.toNat ≤ y then s.fb.pixel x (y - n.toNat) else false } := rfl

theorem exec_scr :
    exec .scr s = .next
      { s with fb := Framebuffer.tabulate s.mode fun x y => if 4 ≤ x then s.fb.pixel (x - 4) y else false } := rfl

theorem exec_scl :
    exec .scl s = .next
      { s with fb := Framebuffer.tabulate s.mode fun x y =>
                  if x + 4 < s.mode.width then s.fb.pixel (x + 4) y else false } := rfl

end Sys2Proof.Machine
end

section
/-! PROOFS. The obligations on the shifts, the random byte, the register blocks and the whole-screen operations. -/

namespace Sys2Proof

open Machine

/-- Settles O39: each is one flagged write to `V[y]` of a shift of `V[x]`. -/
theorem shiftsReadXAndWriteY : Obligations.ShiftsReadXAndWriteY := by
  intro x y s
  have hx := (s.getV x).isLt
  refine ⟨⟨_, exec_shr s x y, ?bit0, fun hy => ?half, s.setResultAndFlag_keepsRegsBut _ _ _,
      s.setResultAndFlag_changesOnly _ _ _⟩,
    ⟨_, exec_shl s x y, ?bit7, fun hy => ?double, s.setResultAndFlag_keepsRegsBut _ _ _,
      s.setResultAndFlag_changesOnly _ _ _⟩⟩
  case bit0 => rw [State.getV_setResultAndFlag_vf, bit0Flag_toNat]
  case half =>
    rw [State.getV_setResultAndFlag_result s _ _ hy, BitVec.toNat_ofNat, Nat.shiftRight_eq_div_pow]
    omega
  case bit7 => rw [State.getV_setResultAndFlag_vf, bit7Flag_toNat]
  case double =>
    rw [State.getV_setResultAndFlag_result s _ _ hy, BitVec.toNat_ofNat, Nat.shiftLeft_eq]

/-- Settles O40: RND is one register write, and `rand` is the byte given or the free one. -/
theorem randomUnderTheMask : Obligations.RandomUnderTheMask := by
  intro x nn s
  refine ⟨⟨_, exec_rnd s x nn, s.getV_setV_same x _, s.setV_keepsRegsBut x _, s.setV_changesOnly x _⟩,
    fun b hb => ?given, fun hb => ?free⟩
  case given => rw [State.rand, hb]; rfl
  case free => rw [State.rand, hb]; rfl

/-- Settles O43: the block `V[0..x]` fits in memory, where each of its bytes reads back. -/
theorem registersAreStored : Obligations.RegistersAreStored := by
  intro x s hi
  have hin : InMemory s.indexAddr (x.toNat + 1) := by simp only [InMemory, State.indexAddr]; omega
  refine ⟨_, exec_ldMemV_of_inMemory hin, fun k hk => s.read_putAll_firstRegs s.mem _ hk, rfl, ?kept,
    changesOnly_mem s _⟩
  case kept =>
    rw [← s.firstRegs_length x]
    exact keepsBytesOutside_putAll s _ _

/-- Settles O44: the block at `I` fits in memory, and the registers it is long for are loaded from it. -/
theorem registersAreLoaded : Obligations.RegistersAreLoaded := by
  intro x s hi
  have hin : InMemory s.indexAddr (x.toNat + 1) := by simp only [InMemory, State.indexAddr]; omega
  exact ⟨_, exec_ldVMem_of_inMemory hin, s.getV_loaded x, s.loaded_changesOnly x⟩

/-- Settles O49: the cleared grid has the mode's size. -/
theorem clearTurnsEveryPixelOff : Obligations.ClearTurnsEveryPixelOff :=
  ⟨decodeWord_cls, fun s => ⟨_, exec_cls s, Framebuffer.sized_tabulate s.mode _,
    fun _ _ hxy => Framebuffer.pixel_tabulate s.mode _ hxy, changesOnly_fb s _⟩⟩

/-- Settles O51: the picture of the selected mode is the blank one, whatever the mode was. -/
theorem modeSwitchAlwaysClears : Obligations.ModeSwitchAlwaysClears := fun s =>
  ⟨⟨_, exec_low s, rfl, Framebuffer.sized_blank .normal, Framebuffer.pixel_blank .normal, s.selectMode_changesOnly _⟩,
    ⟨_, exec_high s, rfl, Framebuffer.sized_blank .extended, Framebuffer.pixel_blank .extended,
      s.selectMode_changesOnly _⟩⟩

/-- Settles O50: each new grid is tabulated from the old one at the shifted place, off where none is shifted in. -/
theorem scrollsMoveWithoutWrapping : Obligations.ScrollsMoveWithoutWrapping := by
  intro n s
  refine ⟨⟨_, exec_scd s n, Framebuffer.sized_tabulate .., changesOnly_fb .., fun x y hxy => ?downMoved,
      fun x y hxy hy => ?downOff⟩,
    ⟨_, exec_scr s, Framebuffer.sized_tabulate .., changesOnly_fb .., fun x y hxy => ?rightMoved,
      fun x y hxy hx => ?rightOff⟩,
    ⟨_, exec_scl s, Framebuffer.sized_tabulate .., changesOnly_fb .., fun x y hxy => ?leftMoved,
      fun x y hxy hx => ?leftOff⟩⟩
  case downMoved => rw [Framebuffer.pixel_tabulate _ _ hxy, if_pos (Nat.le_add_left ..), Nat.add_sub_cancel]
  case downOff => rw [Framebuffer.pixel_tabulate _ _ hxy, if_neg (by omega)]
  case rightMoved => rw [Framebuffer.pixel_tabulate _ _ hxy, if_pos (Nat.le_add_left ..), Nat.add_sub_cancel]
  case rightOff => rw [Framebuffer.pixel_tabulate _ _ hxy, if_neg (by omega)]
  case leftMoved =>
    obtain ⟨hx, hy⟩ := hxy
    rw [Framebuffer.pixel_tabulate _ _ ⟨by omega, hy⟩, if_pos hx]
  case leftOff => rw [Framebuffer.pixel_tabulate _ _ hxy, if_neg (by omega)]

end Sys2Proof
end

section
/-! SUPPORT. The two forms of a sprite draw, and a draw after a draw (R240 to R244, R251, R252). -/

namespace Sys2Proof.Machine

theorem collisionFlag_eq_one_iff (c : Bool) : collisionFlag c = 1 ↔ c = true := flag_eq_one c

theorem collisionFlag_mem (c : Bool) : collisionFlag c ∈ ([0, 1] : List Byte) := by cases c <;> decide

section Draw

variable {s : State} {x y n : Nibble} {rows cols : Nat} {data : List Nat}

theorem State.getV_drawSprite_vf :
    (s.drawSprite x y rows cols data).getV vf =
      collisionFlag (blit s.mode (s.getV x).toNat (s.getV y).toNat rows cols data s.fb).2 :=
  (s.getV_drawSprite x y rows cols data vf).trans (if_pos rfl)

theorem State.drawSprite_keepsRegsBut : KeepsRegsBut [vf] s (s.drawSprite x y rows cols data) := fun r hr =>
  (s.getV_drawSprite x y rows cols data r).trans (if_neg (List.ne_of_not_mem_cons hr))

/-- A draw is the sprite its data are the rows of (R240, R243, R244). -/
theorem State.drawSprite_drawnSprite {row : Nat → Nat} (hs : s.FbSized) (hr : rows ≤ 16) (hc : cols ≤ 16)
    (hrow : ∀ r, r < rows → data.getD r 0 = row r) :
    DrawnSprite (s.getV x).toNat (s.getV y).toNat rows cols row s (s.drawSprite x y rows cols data) := by
  obtain ⟨hrows, hcols⟩ := sprite_fits s.mode hr hc
  obtain ⟨hland, hkeep, hcollide⟩ := blit_at_offsets s.mode (s.getV x).toNat (s.getV y).toNat data s.fb hrows hcols hs
  have hbit {r : Nat} (hlt : r < rows) (c : Nat) : spriteBit data cols r c = rowBit row cols r c := by
    rw [spriteBit, rowBit, hrow r hlt]
  refine ⟨fun r c hlt hlt' => ?_, fun px py _ hout => hkeep px py hout, hs.drawSprite x y data hr hc, ?_, ?_⟩
  · rw [← hbit hlt]
    exact hland r c hlt hlt'
  · rw [State.getV_drawSprite_vf]
    exact collisionFlag_mem _
  · rw [State.getV_drawSprite_vf, collisionFlag_eq_one_iff, hcollide]
    refine exists_congr fun r => exists_congr fun c => and_congr_right fun hlt => ?_
    rw [hbit hlt]

/-- A sprite without rows draws nothing (R251, D28). -/
theorem State.drawSprite_no_rows :
    (s.drawSprite x y 0 cols data).fb = s.fb ∧ (s.drawSprite x y 0 cols data).getV vf = 0 :=
  ⟨rfl, State.getV_drawSprite_vf⟩

/-- A second draw of the same sprite at the same origin takes the first one back (R252). -/
theorem State.drawSprite_twice (hs : s.FbSized) (hr : rows ≤ 16) (hc : cols ≤ 16)
    (hx : (s.drawSprite x y rows cols data).getV x = s.getV x)
    (hy : (s.drawSprite x y rows cols data).getV y = s.getV y) :
    ((s.drawSprite x y rows cols data).drawSprite x y rows cols data).fb = s.fb ∧
      (((s.drawSprite x y rows cols data).drawSprite x y rows cols data).getV vf = 1 ↔
        ∃ px py, OnScreen s.mode px py ∧ s.fb.pixel px py = false ∧
          (s.drawSprite x y rows cols data).fb.pixel px py = true) := by
  obtain ⟨hrows, hcols⟩ := sprite_fits s.mode hr hc
  obtain ⟨hsized, hpixel, -⟩ := blit_spec s.mode (s.getV x).toNat (s.getV y).toNat data s.fb hrows hcols hs
  obtain ⟨hsized', hpixel', hcollide⟩ :=
    blit_spec s.mode (s.getV x).toNat (s.getV y).toNat data (s.drawSprite x y rows cols data).fb hrows hcols hsized
  constructor
  · rw [State.drawSprite_fb, hx, hy]
    refine Framebuffer.eq_of_pixel_eq hsized' hs fun px py hon => (hpixel' px py hon).trans ?_
    rw [State.drawSprite_fb, hpixel px py hon, Bool.xor_assoc, Bool.xor_self, Bool.xor_false]
  · rw [State.getV_drawSprite_vf, collisionFlag_eq_one_iff, hx, hy]
    refine hcollide.trans (exists_congr fun px => exists_congr fun py => and_congr_right fun hon => ?_)
    rw [State.drawSprite_fb, hpixel px py hon]
    cases s.fb.pixel px py <;> simp

/-- What DRW draws depends on the mode, memory and `I` alone, and has at most 16 rows and columns (R251). -/
theorem State.exists_drawn_eq_drawSprite (s : State) (n : Nibble) :
    ∃ rows cols data, rows ≤ 16 ∧ cols ≤ 16 ∧ ∀ (t : State) (x y : Nibble), t.mode = s.mode → t.mem = s.mem →
      t.i = s.i → t.drawn x y n = t.drawSprite x y rows cols data := by
  have hn := n.isLt
  by_cases hw : drawsWide s.mode n = true
  · refine ⟨16, 16, spriteRows16 ((List.range 32).map fun k => s.mem.read (s.indexAddr + k)), le_refl _, le_refl _,
      fun t x y hmode hmem hi => ?_⟩
    rw [State.drawn, hmode, if_pos hw, hmem, State.indexAddr, hi]
  · refine ⟨n.toNat, 8, spriteRows8 ((List.range n.toNat).map fun k => s.mem.read (s.indexAddr + k)), by omega, by omega,
      fun t x y hmode hmem hi => ?_⟩
    rw [State.drawn, hmode, if_neg hw, hmem, State.indexAddr, hi]

theorem State.drawn_of_wide (hm : s.mode = .extended) :
    s.drawn x y 0 = s.drawSprite x y 16 16 (spriteRows16 ((List.range 32).map fun k => s.mem.read (s.indexAddr + k))) :=
  if_pos ((drawsWide_iff _ _).mpr ⟨hm, rfl⟩)

theorem State.drawn_of_narrow (h : ¬ (s.mode = .extended ∧ n = 0)) :
    s.drawn x y n =
      s.drawSprite x y n.toNat 8 (spriteRows8 ((List.range n.toNat).map fun k => s.mem.read (s.indexAddr + k))) :=
  if_neg (mt (drawsWide_iff _ _).mp h)

end Draw

end Sys2Proof.Machine
end

section
/-! PROOFS. The obligations on DRW. -/

namespace Sys2Proof

open Machine

/-- Settles O52: the draw is that of the bytes at `I`, one a row, and with no row it changes no pixel. -/
theorem drawsEightWideSprites : Obligations.DrawsEightWideSprites := by
  intro x y n s hs hnarrow hin
  have hn := n.isLt
  have hform : ¬ (s.mode = .extended ∧ n = 0) := fun ⟨hm, h0⟩ => by simp [hm, h0] at hnarrow
  have hlen : drwLength s.mode n = n.toNat := if_neg hform
  have hexec := exec_drw_of_inMemory (s := s) (x := x) (y := y) (n := n) (.inr (by rw [hlen]; exact hin))
  rw [State.drawn_of_narrow hform] at hexec
  refine ⟨_, hexec, State.drawSprite_drawnSprite hs (by omega) (by omega) fun r hr => spriteRows8_getD _ _ _ hr,
    fun h0 => ?empty, State.drawSprite_keepsRegsBut, s.drawSprite_changesOnly ..⟩
  case empty =>
    subst h0
    exact State.drawSprite_no_rows

/-- Settles O53: the draw is that of the 32 bytes at `I`, two a row. -/
theorem drawsSixteenWideSprites : Obligations.DrawsSixteenWideSprites := by
  intro x y s hs hm hi
  have hlen : drwLength s.mode 0 = 32 := if_pos ⟨hm, rfl⟩
  have hexec := exec_drw_of_inMemory (s := s) (x := x) (y := y) (n := 0)
    (.inr (by rw [hlen]; simp only [InMemory, State.indexAddr]; omega))
  rw [State.drawn_of_wide hm] at hexec
  exact ⟨_, hexec, State.drawSprite_drawnSprite hs (le_refl _) (le_refl _) fun r hr => spriteRows16_getD _ _ hr,
    State.drawSprite_keepsRegsBut, s.drawSprite_changesOnly ..⟩

/-- Settles O54: the second draw has the same data and origin, so each pixel is XORed twice with the same bit. -/
theorem drawingTwiceRestores : Obligations.DrawingTwiceRestores := by
  intro x y n s hs hin
  obtain ⟨rows, cols, data, hr, hc, hdrawn⟩ := s.exists_drawn_eq_drawSprite n
  have hfirst := exec_drw_of_inMemory (x := x) (y := y) (.inr hin)
  rw [hdrawn s x y rfl rfl rfl] at hfirst
  have hregs : KeepsRegsBut [vf] s (s.drawSprite x y rows cols data) := State.drawSprite_keepsRegsBut
  refine ⟨_, hfirst, fun hx => hregs x (by simpa using hx), fun hy => hregs y (by simpa using hy),
    fun hx hy => ?second⟩
  case second =>
    have hsecond := exec_drw_of_inMemory (s := s.drawSprite x y rows cols data) (x := x) (y := y) (n := n) (.inr hin)
    rw [hdrawn (s.drawSprite x y rows cols data) x y rfl rfl rfl] at hsecond
    obtain ⟨hfb, hvf⟩ := State.drawSprite_twice hs hr hc hx hy
    obtain ⟨hsame, hhost, hparams⟩ :=
      (s.drawSprite_changesOnly x y rows cols data).trans (State.drawSprite_changesOnly _ x y rows cols data)
    refine ⟨_, hsecond, hfb, hvf, fun r hr => (State.drawSprite_keepsRegsBut r hr).trans (hregs r hr), fun c hc => ?_,
      hhost, hparams⟩
    cases c
    case fb => exact hfb
    case v => simp at hc
    all_goals exact hsame _ (by simp)

end Sys2Proof
end
